-- ==== Sys2Proof/Config.lean ====
section
/-! DEFINITION. The elaboration-time parameters of R7 (decisions D2, D3, D4). They are fixed when the block is
built and no port reads or writes them (R17). State carries them as plain data, so that a statement over every
state is a statement for every legal `AW`, `CW` and both policies (DESIGN CHOICE, safe: log 1). `T_PD` is OPEN and the model has no
time (R7, R88; log 7). -/

namespace Sys2Proof

/-- `ADDR_OVERRANGE_POLICY`: what an address above 0xFFFF does (R7, R56, U1). -/
inductive Policy
  | truncate
  | reject
deriving DecidableEq, Repr

/-- The parameters of one built block (R7). A record of widths that R7 does not allow cannot be built. -/
structure Params where
  /-- `AW`, the width in bits of `addr_i`. -/
  aw : Nat
  /-- `CW`, the width in bits of `cmd_i`. -/
  cw : Nat
  policy : Policy
  aw_legal : 16 ≤ aw := by decide
  cw_legal : 8 ≤ cw := by decide
deriving DecidableEq, Repr

/-- The values this spec takes: `AW = 32`, `CW = 32`, `TRUNCATE` (R7). -/
def Params.specDefault : Params := { aw := 32, cw := 32, policy := .truncate }

end Sys2Proof
end

