-- ==== Sys2Proof/Syntax.lean ====
section
/-! DEFINITION. The requests of the block: one operation, ENCODE, in three decode classes (R2, R39), one
constructor per row of spec/opcode_table.json, and the assembler's lines (R43). -/

namespace Sys2Proof

/-- A decoded request. Both operands are the whole values of the ports, "an unsigned integer" each (R21, R22), so
that no bit of the request is lost; the meanings take `a8`, `a16` and `cmd8` from them (DESIGN CHOICE,
safe: log 13). -/
inductive Instr
  /-- ENCODE, class NORMAL (R54). -/
  | encodeNormal (addr cmd : Nat)
  /-- ENCODE, class EXTENDED (R55). -/
  | encodeExtended (addr cmd : Nat)
  /-- ENCODE, class OVERRANGE (R56). -/
  | encodeOverrange (addr cmd : Nat)
deriving DecidableEq, Repr

namespace Instr

/-- The address operand (R35). -/
def addr : Instr → Nat
  | encodeNormal a _ => a
  | encodeExtended a _ => a
  | encodeOverrange a _ => a

/-- The command operand (R36). -/
def cmd : Instr → Nat
  | encodeNormal _ c => c
  | encodeExtended _ c => c
  | encodeOverrange _ c => c

/-- The row of spec/opcode_table.json. -/
def mnemonic : Instr → String
  | encodeNormal _ _ => "ENCODE.NORMAL"
  | encodeExtended _ _ => "ENCODE.EXTENDED"
  | encodeOverrange _ _ => "ENCODE.OVERRANGE"

end Instr

/-- An operand of an assembler line: a hexadecimal or decimal literal, or a character `'c'` (R43). -/
inductive AsmOperand
  | number (n : Nat)
  | character (c : Char)
deriving DecidableEq, Repr

/-- The line `ENCODE <address>, <command>` (R43). -/
structure AsmLine where
  address : AsmOperand
  command : AsmOperand
deriving DecidableEq, Repr

end Sys2Proof
end

