-- ==== Sys2Proof/WellFormed.lean ====
section
/-! DEFINITION. When a decoded request is one that the decode of R39 can give: its operands fit their ports (R28,
R33) and its address lies in the value range of its class (R39). -/

namespace Sys2Proof.Instr

/-- The operands fit `AW` and `CW` bits (R33). -/
def fits (p : Params) (i : Instr) : Bool := decide (i.addr < 2 ^ p.aw) && decide (i.cmd < 2 ^ p.cw)

/-- The address is in the class's "equivalent value range" (R39). -/
def inClass : Instr → Bool
  | encodeNormal a _ => decide (a ≤ 0xFF)
  | encodeExtended a _ => decide (0xFF < a) && decide (a ≤ 0xFFFF)
  | encodeOverrange a _ => decide (0xFFFF < a)

/-- Well-formed for a block with parameters `p`. -/
def wf (p : Params) (i : Instr) : Bool := i.fits p && i.inClass

end Sys2Proof.Instr
end

