-- ==== Sys2Proof/Word.lean ====
section
/-! DEFINITION. The bit-vector types of the datapath: R8 (every value is unsigned), R23, R28, R45. -/

namespace Sys2Proof

/-- An 8-bit field of the payload, or a byte of an operand (R25, R35, R36). -/
abbrev Byte := BitVec 8

/-- The 16-bit address operand, and a field pair of the payload (R35, R49, R52, R53). -/
abbrev Half := BitVec 16

/-- The value of the output port `payload_o` (R19, R23). -/
abbrev Payload := BitVec 32

end Sys2Proof
end

