-- ==== Sys2Proof/Decode.lean ====
section
/-! DEFINITION. From a request to its decode class and back: R33 (the request), R39 (the classes, and the same as
match and mask), R43 (assembler lines). Total on every pair of numbers, rejecting by name. -/

namespace Sys2Proof

/-- Why a pair of numbers is no request of this block. There is no reserved or illegal request (R38): the only
ground is a number wider than its port (R28, R34). -/
inductive DecodeReject
  | addressTooWide
  | commandTooWide
deriving DecidableEq, Repr

/-- The decoder, on the pair `(addr_i, cmd_i)` that a request is (R33). The classes are tested in the order of R39,
each by its condition on the high bits of `addr_i`. -/
def decodePair (p : Params) (a c : Nat) : Except DecodeReject Instr :=
  if 2 ^ p.aw ≤ a then .error .addressTooWide
  else if 2 ^ p.cw ≤ c then .error .commandTooWide
  else if a >>> 8 = 0 then .ok (.encodeNormal a c)
  else if a >>> 16 = 0 then .ok (.encodeExtended a c)
  else .ok (.encodeOverrange a c)

/-- `REQ[AW+CW-1:CW]` (R33). -/
def reqAddr (p : Params) (w : Nat) : Nat := w / 2 ^ p.cw

/-- `REQ[CW-1:0]` (R33). -/
def reqCmd (p : Params) (w : Nat) : Nat := w % 2 ^ p.cw

/-- The decoder, on the word `REQ = {addr_i, cmd_i}` (R33). -/
def decodeReq (p : Params) (w : Nat) : Except DecodeReject Instr := decodePair p (reqAddr p w) (reqCmd p w)

/-- `REQ = {addr_i, cmd_i}` (R33, R9). -/
def reqWord (p : Params) (a c : Nat) : Nat := a * 2 ^ p.cw + c

/-- The request word of an instruction. -/
def encode (p : Params) (i : Instr) : Nat := reqWord p i.addr i.cmd

/-- A row of the decode table: a request matches when its masked bits equal the pattern (R39). -/
structure TableRow where
  mnemonic : String
  mask : Nat
  pattern : Nat
deriving DecidableEq, Repr

/-- spec/opcode_table.json in its general form: NORMAL masks the bits AW+CW-1 .. CW+8, EXTENDED the bits
AW+CW-1 .. CW+16, OVERRANGE catches all; the order is the table's decode order. -/
def opcodeTable (p : Params) : List TableRow :=
  [{ mnemonic := "ENCODE.NORMAL", mask := 2 ^ (p.aw + p.cw) - 2 ^ (p.cw + 8), pattern := 0 },
   { mnemonic := "ENCODE.EXTENDED", mask := 2 ^ (p.aw + p.cw) - 2 ^ (p.cw + 16), pattern := 0 },
   { mnemonic := "ENCODE.OVERRANGE", mask := 0, pattern := 0 }]

/-- The mnemonic of the first row that the request word matches (R39). -/
def tableMnemonic (p : Params) (w : Nat) : Option String :=
  ((opcodeTable p).find? fun r => w &&& r.mask == r.pattern).map TableRow.mnemonic

/-- What the decoder reads from a request word of `nbits` bits at the default widths of the opcode table. -/
def decodeTableWord (nbits w : Nat) : Option Instr :=
  match decodeReq Params.specDefault (w % 2 ^ nbits) with
  | .ok i => some i
  | .error _ => none

/-- An assembler operand's value. A character stands for its ASCII code (R43); a character that has none is no
operand (DESIGN CHOICE, safe: log 14). -/
def AsmOperand.value : AsmOperand → Option Nat
  | number n => some n
  | character c => if c.toNat < 128 then some c.toNat else none

/-- The request of the line `ENCODE <address>, <command>`; each operand must fit its port width (R43). -/
def assemble (p : Params) (l : AsmLine) : Option Instr :=
  match l.address.value, l.command.value with
  | some a, some c =>
    match decodePair p a c with
    | .ok i => some i
    | .error _ => none
  | _, _ => none

end Sys2Proof
end

