-- ==== Sys2Proof/Machine/Flags.lean ====
section
/-! DEFINITION. The block has no flags (R16). Its conditions are the path select (R51) and the error level (R67, R68),
each a function of the present address and the parameters. -/

namespace Sys2Proof.Machine

/-- The path select: the unsigned comparison of the whole address with 0xFF (R51). -/
def ext (addr : Nat) : Bool := decide (0xFF < addr)

/-- The address is in class OVERRANGE (R39). -/
def overrange (addr : Nat) : Bool := decide (0xFFFF < addr)

/-- The cause of `AddressOutOfRange`: an OVERRANGE address under `REJECT` (R67). -/
def addressOutOfRange (p : Params) (addr : Nat) : Bool := decide (p.policy = .reject) && overrange addr

/-- `AddressOutOfRange` can occur in this block: under `TRUNCATE` it cannot (R67), and "With `AW = 16` the OVERRANGE
class cannot occur, and `ADDR_OVERRANGE_POLICY` has no effect" (R7). -/
def canReject (p : Params) : Bool := decide (p.policy = .reject) && decide (16 < p.aw)

/-- What `err_o` carries while the outputs are not specified. Where no error can occur it is the constant 0, and "a
constant output does not glitch" (R68, R85, C9; at `AW = 16` there is no bit `addr_i[AW-1:16]` that could set it);
otherwise it has no value until the inputs have settled (R82, R85). -/
def errAtRest (p : Params) : Option Bool := if canReject p then none else some false

end Sys2Proof.Machine
end

