-- ==== Sys2Proof/Machine/Operands.lean ====
section
/-! DEFINITION. The operand slices (R35, R36) and the datapath units on them (R44, R45, R46). -/

namespace Sys2Proof.Machine

/-- `rev_W(v)`: result bit `i` is input bit `W-1-i` (R44). -/
def rev {w : Nat} (v : BitVec w) : BitVec w := BitVec.ofFnLE fun i => v.getLsbD (w - 1 - i)

/-- The reversal instance of the command path and of the normal address path (R45). -/
def rev8 (b : Byte) : Byte := rev b

/-- The reversal instance of the extended address path: one reversal across all 16 bits (R45, R47, C2). -/
def rev16 (h : Half) : Half := rev h

/-- `comp8(b) = b ^ 0xFF`, the one's-complement checksum byte (R46). -/
def comp8 (b : Byte) : Byte := b ^^^ 0xFF#8

/-- `{hi, lo}`, the concatenation of two bytes (R9). -/
def cat8 (hi lo : Byte) : Half := hi ++ lo

/-- `{hi, lo}`, the concatenation of two 16-bit fields (R9). -/
def cat16 (hi lo : Half) : Payload := hi ++ lo

/-- `a8 = addr_i[7:0]` (R35). -/
def a8 (addr : Nat) : Byte := BitVec.ofNat 8 addr

/-- `a16 = addr_i[15:0]`; the bits above reach no payload bit (R35). -/
def a16 (addr : Nat) : Half := BitVec.ofNat 16 addr

/-- `cmd8 = cmd_i[7:0]`; the bits above are read by nothing (R36). -/
def cmd8 (cmd : Nat) : Byte := BitVec.ofNat 8 cmd

end Sys2Proof.Machine
end

