-- ==== Sys2Proof/Machine/State.lean ====
section
/-! DEFINITION. The machine as plain data. The block stores nothing (R13 to R18): State holds its four ports (R19),
the parameters it was built with (R7), and the host's side of the ports (R89). The end states of the programs in
spec/95_test_vectors.md are the values of exactly these four ports. -/

namespace Sys2Proof.Machine

/-- What one wire of an input port carries: a defined 0 or 1, or no defined level (undriven or unknown, R84). -/
inductive Level
  | low
  | high
  | unknown
deriving DecidableEq, Repr

/-- What the host does at the ports (R89). The model takes one action at a time
(DESIGN CHOICE: log 5). -/
inductive HostAction
  /-- Put levels on `addr_i`, wire 0 first. The two operands may change at different moments (R86). -/
  | driveAddr (levels : List Level)
  /-- Put levels on `cmd_i`, wire 0 first. -/
  | driveCmd (levels : List Level)
  /-- Keep both inputs stable for `T_PD` (R11, R85, R86). -/
  | hold
  /-- Read the outputs (R89). -/
  | sample
deriving DecidableEq, Repr

/-- What the host gets back from a sample: `(payload_o, err_o)` (D21, R89). -/
structure Observation where
  payload : Payload
  err : Bool
deriving DecidableEq, Repr

structure State where
  /-- `AW`, `CW`, `ADDR_OVERRANGE_POLICY` (R7). -/
  params : Params
  /-- The wires of `addr_i`, wire 0 first; there are `AW` of them (R19). -/
  addr_i : List Level
  /-- The wires of `cmd_i`, wire 0 first; there are `CW` of them (R19). -/
  cmd_i : List Level
  /-- The value on `payload_o`; `none` while it is not specified (R82, R84, R85;
  DEDUCED: log 4). -/
  payload_o : Option Payload
  /-- The value on `err_o`; `none` while it is not specified (R68, R82, R84, R85). -/
  err_o : Option Bool
  /-- The host's actions still to come, next first. The model's own field: the host's, not the block's (log 5). -/
  pending : List HostAction
  /-- What the host has sampled, oldest first. The model's own field: the host's, not the block's (log 5). -/
  observed : List Observation
deriving DecidableEq, Repr

/-- The ways the machine stops by its own account. There are none: "No behaviour in this spec is `fault` or
`stuck`: the block has no trap, and every admitted request completes" (93_implementation_defined.md §1, R72). -/
inductive Fault
deriving DecidableEq, Repr

/-- Why a step is not given. -/
inductive Refusal
  /-- An instruction without a meaning; no arm of `exec` raises it. Safe. -/
  | notModelled (mnemonic : String)
  /-- Raised by a step that holds the inputs while some wire of `addr_i` or `cmd_i` has no defined level: "A model
  refuses such an operation, so it has no step" (R84, U5). Safe. -/
  | undrivenInput
  /-- Raised by a step that samples outputs which have no value: "admits no sample before `T_PD`" (R82, R85, U4).
  Safe. -/
  | unsettledSample
  /-- Raised by a step from a State literal whose port lists are longer than `AW` or `CW`. No run reaches such a
  state (`State.wf` is kept by every step). DESIGN CHOICE, safe: log 16. -/
  | requestDoesNotFit
deriving DecidableEq, Repr

/-- A block with parameters `p` after power-up: the ports hold no request, and the outputs have no value (R19, R82;
DEDUCED: log 3, log 4). -/
def State.powerUp (p : Params) : State :=
  { params := p
    addr_i := List.replicate p.aw .unknown
    cmd_i := List.replicate p.cw .unknown
    payload_o := none
    err_o := errAtRest p
    pending := []
    observed := [] }

/-- There is no reset input and no reset value (R81): this is power-up with the parameters the spec takes (R7). -/
def State.reset : State := State.powerUp Params.specDefault

end Sys2Proof.Machine
end

