-- ==== Sys2Proof/Machine/Ops.lean ====
section
/-! DEFINITION. The shared operations: the payload's fields and formats (R40, R41, R48 to R53), driving the outputs
and raising the one error (R10, R69), the combined function (R57), and the host's actions at the ports (R84 to
R86, R89). -/

namespace Sys2Proof.Machine

/-! ## Fields and formats -/

/-- `cmdRev = rev_8(cmd8)` (R48). -/
def cmdRev (cmd : Nat) : Byte := rev8 (cmd8 cmd)

/-- `commandField = {cmdRev, comp8(cmdRev)}` (R49). -/
def commandField (cmd : Nat) : Half := cat8 (cmdRev cmd) (comp8 (cmdRev cmd))

/-- `addrRev8 = rev_8(a8)` (R52). -/
def addrRev8 (addr : Nat) : Byte := rev8 (a8 addr)

/-- `addressFieldN = {addrRev8, comp8(addrRev8)}` (R52). -/
def addressFieldN (addr : Nat) : Half := cat8 (addrRev8 addr) (comp8 (addrRev8 addr))

/-- `addrRev16 = rev_16(a16)` (R53). -/
def addrRev16 (addr : Nat) : Half := rev16 (a16 addr)

/-- Format P_NORMAL (R40). -/
def payloadNormal (addr cmd : Nat) : Payload := cat16 (addressFieldN addr) (commandField cmd)

/-- Format P_EXTENDED (R41). -/
def payloadExtended (addr cmd : Nat) : Payload := cat16 (addrRev16 addr) (commandField cmd)

/-- The combined datapath function ENCODE, tests and multiplexer in the order of R57. -/
def encodeNec (p : Params) (addr cmd : Nat) : Observation :=
  if addressOutOfRange p addr then { payload := 0#32, err := true }
  else if ext addr then { payload := payloadExtended addr cmd, err := false }
  else { payload := payloadNormal addr cmd, err := false }

/-! ## Outputs -/

/-- `payload_o <- v` and `err_o <- b` (R10). -/
def State.driveOutputs (s : State) (v : Payload) (b : Bool) : State :=
  { s with payload_o := some v, err_o := some b }

/-- `raise AddressOutOfRange()`: `err_o <- 1` and `payload_o <- 0x00000000`, and nothing else, because there is no
state to save, no mode and no control flow (R10, R69, R75). The error lasts as long as the address is presented:
there is no return beside it (R75). The payload value is the spec's decision D6 (log 9). -/
def State.raiseAddressOutOfRange (s : State) : State := s.driveOutputs 0#32 true

/-- The outputs when an input has just changed, or has no defined level: not specified (R82, R84, R85). -/
def State.unsettle (s : State) : State :=
  { s with payload_o := none, err_o := errAtRest s.params }

/-! ## Input ports -/

/-- The levels of `n` wires that carry the number `v`, wire 0 first; bits of `v` above them have no wire (R8). -/
def levelsOf : Nat → Nat → List Level
  | 0, _ => []
  | n + 1, v => (if v % 2 = 1 then .high else .low) :: levelsOf n (v / 2)

/-- The unsigned number on a port (R8), if every wire has a defined level (R84). -/
def portValue : List Level → Option Nat
  | [] => some 0
  | .unknown :: _ => none
  | .low :: ls => (portValue ls).map fun v => 2 * v
  | .high :: ls => (portValue ls).map fun v => 2 * v + 1

/-- A list of levels put on a port of `n` wires: a wire that gets no level is undriven, and a level without a wire
is lost (DESIGN CHOICE, safe: log 2). -/
def connect : Nat → List Level → List Level
  | 0, _ => []
  | n + 1, [] => .unknown :: connect n []
  | n + 1, l :: ls => l :: connect n ls

/-- The request on the ports: the pair of their present values, if every bit of both is defined (R33, R84). -/
def State.request (s : State) : Option (Nat × Nat) :=
  match portValue s.addr_i, portValue s.cmd_i with
  | some a, some c => some (a, c)
  | _, _ => none

/-- The host puts levels on `addr_i`. A change of the port unsettles the outputs (R85); presenting what is already
there "changes nothing" (R29; DEDUCED: log 10). -/
def State.driveAddrPort (s : State) (levels : List Level) : State :=
  if connect s.params.aw levels = s.addr_i then s
  else ({ s with addr_i := connect s.params.aw levels } : State).unsettle

/-- The host puts levels on `cmd_i`; as `State.driveAddrPort` (R85, R29). -/
def State.driveCmdPort (s : State) (levels : List Level) : State :=
  if connect s.params.cw levels = s.cmd_i then s
  else ({ s with cmd_i := connect s.params.cw levels } : State).unsettle

/-- The host reads both outputs. Reading has no side effect on the block (R29); outputs without a value admit no
sample (R82, R85). -/
def State.sampleOutputs (s : State) : Host.Outcome State Fault Refusal :=
  match s.payload_o, s.err_o with
  | some v, some b => .next { s with observed := s.observed ++ [{ payload := v, err := b }] }
  | _, _ => .refused .unsettledSample

/-! ## The host's requests -/

/-- One request as the host presents it: both operands, hold, sample (R11, R89). -/
def requestActions (p : Params) (addr cmd : Nat) : List HostAction :=
  [.driveAddr (levelsOf p.aw addr), .driveCmd (levelsOf p.cw cmd), .hold, .sample]

/-- The request word `w` stands on the ports and the host does nothing more, so that the next thing that happens is
that these inputs stay stable (R11, R33; DESIGN CHOICE, safe: log 8). -/
def State.presentReq (s : State) (w : Nat) : State :=
  ({ s with
     addr_i := levelsOf s.params.aw (reqAddr s.params w)
     cmd_i := levelsOf s.params.cw (reqCmd s.params w)
     pending := [] } : State).unsettle

end Sys2Proof.Machine
end

