-- ==== Sys2Proof/Machine/Encode.lean ====
section
/-! DEFINITION. The meanings of the three rows of the opcode table (R54, R55, R56). None of them refuses, and none
touches anything but the outputs (R29). -/

namespace Sys2Proof.Machine

/-- ENCODE, class NORMAL (R54). -/
def execEncodeNormal (addr cmd : Nat) (s : State) : Host.Outcome State Fault Refusal :=
  .next (s.driveOutputs (payloadNormal addr cmd) false)

/-- ENCODE, class EXTENDED (R55). -/
def execEncodeExtended (addr cmd : Nat) (s : State) : Host.Outcome State Fault Refusal :=
  .next (s.driveOutputs (payloadExtended addr cmd) false)

/-- ENCODE, class OVERRANGE (R56): the extended format on `addr_i[15:0]` under `TRUNCATE`, the error under
`REJECT`. -/
def execEncodeOverrange (addr cmd : Nat) (s : State) : Host.Outcome State Fault Refusal :=
  match s.params.policy with
  | .truncate => .next (s.driveOutputs (payloadExtended addr cmd) false)
  | .reject => .next s.raiseAddressOutOfRange

end Sys2Proof.Machine
end

