-- ==== Sys2Proof/Machine/Dispatch.lean ====
section
/-! DEFINITION. One arm per row of the opcode table. -/

namespace Sys2Proof.Machine

def exec (i : Instr) (s : State) : Host.Outcome State Fault Refusal :=
  match i with
  | .encodeNormal addr cmd => Sys2Proof.Machine.execEncodeNormal addr cmd s
  | .encodeExtended addr cmd => Sys2Proof.Machine.execEncodeExtended addr cmd s
  | .encodeOverrange addr cmd => Sys2Proof.Machine.execEncodeOverrange addr cmd s

end Sys2Proof.Machine
end

