-- ==== Sys2Proof/Machine/Perform.lean ====
section
/-! DEFINITION. What happens at the ports in one step: one evaluation of the datapath, or one action of the host
(R11, R20, R84 to R86, R89). -/

namespace Sys2Proof.Machine

/-- The inputs have been stable for `T_PD`: the block evaluates the request on its ports (R11, R20). It refuses when
a bit of the inputs is undriven or unknown (R84). -/
def State.evaluate (s : State) : Host.Outcome State Fault Refusal :=
  match s.request with
  | none => .refused .undrivenInput
  | some (a, c) =>
    match decodePair s.params a c with
    | .error _ => .refused .requestDoesNotFit
    | .ok i => exec i s

/-- One action of the host (R89). -/
def State.perform (s : State) : HostAction → Host.Outcome State Fault Refusal
  | .driveAddr levels => .next (s.driveAddrPort levels)
  | .driveCmd levels => .next (s.driveCmdPort levels)
  | .hold => s.evaluate
  | .sample => s.sampleOutputs

end Sys2Proof.Machine
end

