-- ==== Sys2Proof/Machine/Step.lean ====
section
/-! DEFINITION. One step of the machine, and how a request word is placed for the next step. -/

namespace Sys2Proof.Machine

/-- The host's next action happens. With none to come the host leaves its inputs as they are, so they stay stable
and the block goes on evaluating them (R20, R29; DESIGN CHOICE, log 6). -/
def step (s : State) : Host.Outcome State Fault Refusal :=
  match s.pending with
  | [] => s.evaluate
  | act :: rest => ({ s with pending := rest } : State).perform act

/-- `s` with the `nbits`-bit request word `w` on its ports and no host action before the next evaluation, so that
`step` evaluates exactly that request (DESIGN CHOICE, safe: log 8). -/
def State.withFetchWord (s : State) (nbits w : Nat) : State := s.presentReq (w % 2 ^ nbits)

end Sys2Proof.Machine
end

