-- ==== Sys2Proof/Machine/Wire.lean ====
section
/-! DEFINITION. How a consumer of the outputs reads them: the payload's fields in order (R25), its bits in the order
the payload assumes of a transmitter (R26, D18), and the discard of a rejected payload (R69). -/

namespace Sys2Proof.Machine

/-- The four fields, field 1 (the first byte to send) first (R25). -/
def wireBytes (v : Payload) : List Byte :=
  [v.extractLsb' 24 8, v.extractLsb' 16 8, v.extractLsb' 8 8, v.extractLsb' 0 8]

/-- The lowest `n` bits of the payload, from bit `n-1` down to bit 0. -/
def bitsDown (v : Payload) : Nat → List Bool
  | 0 => []
  | n + 1 => v.getLsbD n :: bitsDown v n

/-- The bits in the order they are sent: from bit 31 down to bit 0 (R26; DEDUCED, as decision D18: log 12). -/
def wireBits (v : Payload) : List Bool := bitsDown v 32

/-- The payload a consumer may use: "A consumer must discard `payload_o` whenever `err_o = 1`" (R69). -/
def Observation.accepted (o : Observation) : Option Payload := if o.err then none else some o.payload

end Sys2Proof.Machine
end

