-- ==== Sys2Proof/Safety.lean ====
section
/-! DEFINITION. What a run of this block must never break: the ports keep their widths, and outputs that have a value
are ENCODE of the inputs that are on the ports (R19, R20, R68). -/

namespace Sys2Proof.Machine

/-- Each port has as many wires as its parameter says (R19). -/
def State.portsWide (s : State) : Bool :=
  decide (s.addr_i.length = s.params.aw) && decide (s.cmd_i.length = s.params.cw)

/-- The outputs belong to the inputs: if `payload_o` has a value, both inputs are defined and
`(payload_o, err_o) = ENCODE(addr_i, cmd_i)` (R20, R29); otherwise `err_o` is what it is while nothing is specified,
so where no error can occur it is 0 (R7, R68, R85). -/
def State.outputsAgree (s : State) : Bool :=
  match s.payload_o, s.err_o, s.request with
  | some v, some b, some (a, c) => decide (({ payload := v, err := b } : Observation) = encodeNec s.params a c)
  | some _, _, _ => false
  | none, b, _ => decide (b = errAtRest s.params)

/-- The invariant of the machine. -/
def State.wf (s : State) : Bool := s.portsWide && s.outputsAgree

/-- The next step holds the inputs: the host's next action is `hold`, or the host does nothing more (log 6). -/
def State.holding (s : State) : Bool :=
  match s.pending with
  | [] => true
  | .hold :: _ => true
  | _ => false

/-- The state with the host's next action taken off its list. -/
def State.advance (s : State) : State := { s with pending := s.pending.tail }

/-- The same state of a block built with another `ADDR_OVERRANGE_POLICY` (R7). -/
def State.withPolicy (s : State) (q : Policy) : State := { s with params := { s.params with policy := q } }

/-- An observation that some request of a block with parameters `p` gives (D21). -/
def Observation.sound (p : Params) (o : Observation) : Prop :=
  ∃ a c, a < 2 ^ p.aw ∧ c < 2 ^ p.cw ∧ o = encodeNec p a c

end Sys2Proof.Machine
end

