-- ==== Sys2Proof/Certificates/Slice0/Obligations.lean ====
section
/-! DEFINITION. The statements for the provers. Each docstring says which sentence of the spec it formalises. Where a
rule is marked [derived] or [decision] in the spec, the docstring says so and the statement's basis is 'derived'.
In the words below, a request `(a, c)` is the pair on `addr_i` and `cmd_i`. -/

open Sys2Proof Sys2Proof.Machine

/-! ## The datapath's units -/

/-- R44, whole: `r[i] = v[W-1-i]` for every `W`, its corner cases and its examples. -/
def Obligations.ReversalMovesEachBitToItsMirror : Prop :=
  (∀ (w : Nat) (v : BitVec w) (i : Nat), i < w → (rev v).getLsbD i = v.getLsbD (w - 1 - i)) ∧
  (∀ w : Nat, rev (0#w) = 0#w ∧ rev (BitVec.allOnes w) = BitVec.allOnes w) ∧
  (∀ (w : Nat) (v : BitVec w), rev (rev v) = v) ∧
  (rev8 0x42#8 = 0x42#8 ∧ rev8 0xA5#8 = 0xA5#8 ∧ rev8 0x01#8 = 0x80#8 ∧ rev8 0x30#8 = 0x0C#8)

/-- R46 with its corner cases, which the spec marks [derived: corner cases from the pseudocode]. -/
def Obligations.ComplementByteInvertsAndCommutes : Prop :=
  (∀ b : Byte, comp8 b = b ^^^ 0xFF#8 ∧ comp8 b = ~~~b) ∧
  (∀ (b : Byte) (i : Nat), i < 8 → (comp8 b).getLsbD i = !b.getLsbD i) ∧
  (∀ b : Byte, comp8 (comp8 b) = b ∧ b ^^^ comp8 b = 0xFF#8 ∧ comp8 (rev8 b) = rev8 (comp8 b)) ∧
  (comp8 0x00#8 = 0xFF#8 ∧ comp8 0xFF#8 = 0x00#8 ∧ comp8 0x0C#8 = 0xF3#8)

/-- R47 (marked [derived: from rule R44]; C2): the 16-bit reversal is both bytes reversed and swapped, which is not
the reversal of each byte in place. -/
def Obligations.WideReversalSwapsReversedBytes : Prop :=
  (∀ h : Half, rev16 h = rev8 (h.extractLsb' 0 8) ++ rev8 (h.extractLsb' 8 8)) ∧
  rev16 0x0100#16 = 0x0080#16 ∧
  rev8 ((0x0100#16 : Half).extractLsb' 8 8) ++ rev8 ((0x0100#16 : Half).extractLsb' 0 8) = 0x8000#16

/-- R48 and R49, whole: the command path. `cmdRev[i] = cmd8[7-i]`, only the low byte of `cmd_i` matters, and the field
pair is `(cmdRev << 8) | (cmdRev ^ 0xFF)` with its corner cases; it drives bits 15:0 of both formats. -/
def Obligations.CommandPathGivesReversedByteAndComplement : Prop :=
  (∀ c i : Nat, i < 8 → (cmdRev c).getLsbD i = (cmd8 c).getLsbD (7 - i) ∧ (cmd8 c).getLsbD i = c.testBit i) ∧
  (∀ c c' : Nat, c % 256 = c' % 256 → cmdRev c = cmdRev c') ∧
  (∀ c : Nat, (commandField c).extractLsb' 8 8 = cmdRev c ∧
    (commandField c).extractLsb' 0 8 = cmdRev c ^^^ 0xFF#8 ∧
    commandField c = (cmdRev c).setWidth 16 <<< 8 ||| (cmdRev c ^^^ 0xFF#8).setWidth 16) ∧
  (∀ a c : Nat, (payloadNormal a c).extractLsb' 0 16 = commandField c ∧
    (payloadExtended a c).extractLsb' 0 16 = commandField c) ∧
  (∀ c : Nat, commandField c ≠ 0x0000#16 ∧ commandField c ≠ 0xFFFF#16) ∧
  (cmdRev 0x30 = 0x0C#8 ∧ cmdRev 0x130 = 0x0C#8 ∧ cmdRev 0xFFFFFF30 = 0x0C#8 ∧ cmdRev 0x00 = 0x00#8 ∧
    cmdRev 0xFF = 0xFF#8) ∧
  (commandField 0x00 = 0x00FF#16 ∧ commandField 0xFF = 0xFF00#16 ∧ commandField 0x01 = 0x807F#16 ∧
    commandField 0x80 = 0x01FE#16 ∧ commandField 0x30 = 0x0CF3#16)

/-- R52, whole: the normal address field pair, which drives bits 31:16 of P_NORMAL. -/
def Obligations.NormalAddressFieldIsReversedByteAndComplement : Prop :=
  (∀ a i : Nat, i < 8 → (addrRev8 a).getLsbD i = a.testBit (7 - i)) ∧
  (∀ a : Nat, (addressFieldN a).extractLsb' 8 8 = addrRev8 a ∧
    (addressFieldN a).extractLsb' 0 8 = addrRev8 a ^^^ 0xFF#8) ∧
  (∀ a c : Nat, (payloadNormal a c).extractLsb' 16 16 = addressFieldN a) ∧
  (addressFieldN 0x00 = 0x00FF#16 ∧ addressFieldN 0xFF = 0xFF00#16 ∧ addressFieldN 0x42 = 0x42BD#16 ∧
    addressFieldN 0x01 = 0x807F#16)

/-- R53, whole: the extended address field, one reversal across 16 bits, with the bits above 15 dropped; it drives
bits 31:16 of P_EXTENDED. -/
def Obligations.ExtendedAddressFieldReversesSixteenBits : Prop :=
  (∀ a i : Nat, i < 16 → (addrRev16 a).getLsbD i = a.testBit (15 - i)) ∧
  (∀ a c : Nat, (payloadExtended a c).extractLsb' 16 16 = addrRev16 a) ∧
  (addrRev16 0x0100 = 0x0080#16 ∧ addrRev16 0xFFFF = 0xFFFF#16 ∧ addrRev16 0x0142 = 0x4280#16 ∧
    addrRev16 0x10000 = 0x0000#16 ∧ addrRev16 0x1234 = 0x2C48#16)

/-- R51, whole: the path select compares all of `addr_i`; it is the OR of the bits from 8 up; 1 selects the extended
framing and 0 the normal one, for 0x10042 under `TRUNCATE` too. -/
def Obligations.PathSelectComparesTheWholeAddress : Prop :=
  (∀ a : Nat, ext a = true ↔ 0xFF < a) ∧
  (∀ a : Nat, ext a = true ↔ ∃ i, 8 ≤ i ∧ a.testBit i = true) ∧
  (∀ (p : Params) (a c : Nat), p.policy = .truncate →
    (encodeNec p a c).payload = if ext a then addrRev16 a ++ commandField c else addressFieldN a ++ commandField c) ∧
  (∀ (p : Params) (c : Nat), p.policy = .truncate →
    (encodeNec p 0x10042 c).payload.extractLsb' 16 16 = 0x4200#16)

/-- R57 (marked [derived: from rules R54, R55, R56]): the combined function, written as the rule writes it. -/
def Obligations.CombinedFunctionFollowsItsPseudocode : Prop :=
  ∀ (p : Params) (a c : Nat),
    let cr := rev8 (BitVec.ofNat 8 c)
    let r := rev8 (BitVec.ofNat 8 a)
    encodeNec p a c =
      if p.policy = .reject ∧ 0xFFFF < a then { payload := 0x00000000#32, err := true }
      else if 0xFF < a then { payload := rev16 (BitVec.ofNat 16 a) ++ (cr ++ (cr ^^^ 0xFF#8)), err := false }
      else { payload := (r ++ (r ^^^ 0xFF#8)) ++ (cr ++ (cr ^^^ 0xFF#8)), err := false }

/-- R58 (marked [derived: ...]): the source's shifts and ORs compose the same payloads as concatenation. -/
def Obligations.ShiftAndOrComposeTheFields : Prop :=
  ∀ a c : Nat,
    payloadNormal a c = ((addrRev8 a).setWidth 32 <<< 24) ||| ((addrRev8 a ^^^ 0xFF#8).setWidth 32 <<< 16) |||
      (commandField c).setWidth 32 ∧
    payloadExtended a c = ((addrRev16 a).setWidth 32 <<< 16) ||| (commandField c).setWidth 32

/-! ## Requests and their decoding -/

/-- Words from the encodings of R33 and R39, written out by hand, decode to what they stand for. -/
def Obligations.WrittenOutRequestsDecode : Prop :=
  decodeReq Params.specDefault 0x0000004200000030 = .ok (.encodeNormal 0x42 0x30) ∧
  decodeReq Params.specDefault 0x000000FFFFFFFF30 = .ok (.encodeNormal 0xFF 0xFFFFFF30) ∧
  decodeReq Params.specDefault 0x0000010000000001 = .ok (.encodeExtended 0x100 0x1) ∧
  decodeReq Params.specDefault 0x0000FFFF000000FF = .ok (.encodeExtended 0xFFFF 0xFF) ∧
  decodeReq Params.specDefault 0x0001004200000030 = .ok (.encodeOverrange 0x10042 0x30) ∧
  decodeReq { aw := 16, cw := 8, policy := .reject } 0xBD4230 = .ok (.encodeExtended 0xBD42 0x30)

/-- R33: no bit of a request is dropped. For every legal `AW`, `CW` and every well-formed instruction, decoding its
request word gives it back. -/
def Obligations.DecodeInvertsEncode : Prop :=
  ∀ (p : Params) (i : Instr), i.wf p = true → decodeReq p (encode p i) = .ok i

/-- The other direction: every word that decodes is the word of the instruction it decodes to, which is
well-formed; so each request has one meaning. -/
def Obligations.EncodeInvertsDecode : Prop :=
  ∀ (p : Params) (w : Nat) (i : Instr), decodeReq p w = .ok i → encode p i = w ∧ i.wf p = true

/-- The class is selected by the value of the address alone (R21, R34, R39; the order of the classes is the spec's
decision D9); every pair that fits its ports decodes (R38); and with `AW = 16` no request is OVERRANGE (R7). -/
def Obligations.AddressValueSelectsTheClass : Prop :=
  (∀ (p : Params) (a c : Nat), a < 2 ^ p.aw → c < 2 ^ p.cw →
    decodePair p a c = .ok (if a ≤ 0xFF then .encodeNormal a c
      else if a ≤ 0xFFFF then .encodeExtended a c else .encodeOverrange a c)) ∧
  (∀ (p : Params) (a c : Nat) (i : Instr), p.aw = 16 → decodePair p a c = .ok i → i ≠ .encodeOverrange a c)

/-- R39 "As match/mask over REQ" and the general form of spec/opcode_table.json: the first row that a request word
matches is the row of the instruction it decodes to (decision D9). -/
def Obligations.MatchAndMaskAgreeWithTheDecoder : Prop :=
  (∀ (p : Params) (w : Nat) (i : Instr), decodeReq p w = .ok i → tableMnemonic p w = some i.mnemonic) ∧
  (opcodeTable Params.specDefault).map TableRow.mask = [0xFFFFFF0000000000, 0xFFFF000000000000, 0]

/-- R43 (decision D10; the ASCII bound is log 14): an assembler line is the request of its operands' values, when
they fit their ports; `'0'` stands for 0x30. -/
def Obligations.AssemblerLineIsTheRequestOfItsOperands : Prop :=
  (∀ (p : Params) (a c : Nat) (i : Instr),
    assemble p { address := .number a, command := .number c } = some i ↔ decodePair p a c = .ok i) ∧
  (∀ (p : Params) (a : Nat) (ch : Char), ch.toNat < 128 →
    assemble p { address := .number a, command := .character ch } =
      assemble p { address := .number a, command := .number ch.toNat }) ∧
  (AsmOperand.character '0').value = some 0x30

/-! ## The instructions: completion, result and frame -/

/-- R54, whole: `ENCODE`, class NORMAL, always completes with `payload_o` and `err_o` as its pseudocode says, all else
unchanged, under either policy; its decode class, its corner cases and its example. -/
def Obligations.NormalRequestDrivesNormalPayload : Prop :=
  (∀ (s : State) (a c : Nat), a ≤ 0xFF →
    exec (.encodeNormal a c) s = .next { s with
      payload_o := some (rev8 (BitVec.ofNat 8 a) ++ (rev8 (BitVec.ofNat 8 a) ^^^ 0xFF#8) ++
        rev8 (BitVec.ofNat 8 c) ++ (rev8 (BitVec.ofNat 8 c) ^^^ 0xFF#8) : Payload)
      err_o := some false }) ∧
  (∀ (p : Params) (a c : Nat), a ≤ 0xFF → c < 2 ^ p.cw → decodePair p a c = .ok (.encodeNormal a c)) ∧
  (∀ (s t : State) (a c : Nat) (v : Payload), exec (.encodeNormal a c) s = .next t → t.payload_o = some v →
    v.extractLsb' 24 8 ^^^ v.extractLsb' 16 8 = 0xFF#8) ∧
  (∀ (s : State) (a c c' : Nat), c % 256 = c' % 256 → exec (.encodeNormal a c) s = exec (.encodeNormal a c') s) ∧
  (∀ s : State, exec (.encodeNormal 0x00 0x00) s = .next { s with payload_o := some 0x00FF00FF#32, err_o := some false } ∧
    exec (.encodeNormal 0xFF 0xFF) s = .next { s with payload_o := some 0xFF00FF00#32, err_o := some false } ∧
    exec (.encodeNormal 0x42 0x01) s = .next { s with payload_o := some 0x42BD807F#32, err_o := some false })

/-- R55, whole: `ENCODE`, class EXTENDED, always completes with `payload_o` and `err_o` as its pseudocode says, all
else unchanged, under either policy; its decode class, its corner cases (the top bytes are complements exactly for
the addresses `{~a8, a8}`, and then the payload is that of the normal address `a8`) and its example. -/
def Obligations.ExtendedRequestDrivesExtendedPayload : Prop :=
  (∀ (s : State) (a c : Nat), 0xFF < a → a ≤ 0xFFFF →
    exec (.encodeExtended a c) s = .next { s with
      payload_o := some (rev16 (BitVec.ofNat 16 a) ++ rev8 (BitVec.ofNat 8 c) ++
        (rev8 (BitVec.ofNat 8 c) ^^^ 0xFF#8) : Payload)
      err_o := some false }) ∧
  (∀ (p : Params) (a c : Nat), 0xFF < a → a ≤ 0xFFFF → c < 2 ^ p.cw →
    decodePair p a c = .ok (.encodeExtended a c)) ∧
  (∀ (s t : State) (a c : Nat) (v : Payload), 0xFF < a → a ≤ 0xFFFF →
    exec (.encodeExtended a c) s = .next t → t.payload_o = some v →
    (v.extractLsb' 24 8 ^^^ v.extractLsb' 16 8 = 0xFF#8 ↔ a = (0xFF - a % 256) * 256 + a % 256) ∧
    (v.extractLsb' 24 8 ^^^ v.extractLsb' 16 8 = 0xFF#8 →
      exec (.encodeNormal (a % 256) c) s = .next t)) ∧
  (∀ (s t : State) (c : Nat), exec (.encodeExtended 0x100 c) s = .next t →
    t.payload_o.map (fun v => v.extractLsb' 16 16) = some 0x0080#16) ∧
  (∀ (s t : State) (c : Nat), exec (.encodeExtended 0xFFFF c) s = .next t →
    t.payload_o.map (fun v => v.extractLsb' 16 16) = some 0xFFFF#16) ∧
  (∀ s : State, exec (.encodeExtended 0x142 0x01) s =
    .next { s with payload_o := some 0x4280807F#32, err_o := some false })

/-- R56 under `TRUNCATE` (decision D4): an OVERRANGE request completes with the extended format on `addr_i[15:0]`, all
else unchanged; an address that differs from one in (0xFF, 0xFFFF] by a multiple of 0x10000 gives that one's result;
0x10042 takes the extended framing. -/
def Obligations.OverrangeRequestTruncates : Prop :=
  (∀ (s : State) (a c : Nat), 0xFFFF < a → s.params.policy = .truncate →
    exec (.encodeOverrange a c) s = .next { s with
      payload_o := some (rev16 (BitVec.ofNat 16 a) ++ rev8 (BitVec.ofNat 8 c) ++
        (rev8 (BitVec.ofNat 8 c) ^^^ 0xFF#8) : Payload)
      err_o := some false }) ∧
  (∀ (s : State) (a c k : Nat), 0xFF < a → a ≤ 0xFFFF → 1 ≤ k → s.params.policy = .truncate →
    exec (.encodeOverrange (a + k * 0x10000) c) s = exec (.encodeExtended a c) s) ∧
  (∀ s : State, s.params.policy = .truncate →
    exec (.encodeOverrange 0x10042 0x30) s = .next { s with payload_o := some 0x42000CF3#32, err_o := some false } ∧
    exec (.encodeOverrange 0x10000 0x01) s = .next { s with payload_o := some 0x0000807F#32, err_o := some false })

/-- R56 under `REJECT`, R67 and R69 (decisions D4, D5, D6): an OVERRANGE request, whatever its command, raises
`AddressOutOfRange`: `err_o = 1` and `payload_o = 0x00000000`, and nothing else changes. The other two classes never
raise it, and under `TRUNCATE` nothing does. The value of the rejected payload is the spec's choice D6; a consumer must
discard it, and does so through `Observation.accepted`. -/
def Obligations.OverrangeRequestIsRejected : Prop :=
  (∀ (s : State) (a c : Nat), 0xFFFF < a → s.params.policy = .reject →
    exec (.encodeOverrange a c) s = .next { s with payload_o := some 0x00000000#32, err_o := some true }) ∧
  (∀ (i : Instr) (s t : State), i.inClass = true → exec i s = .next t →
    (t.err_o = some true ↔ s.params.policy = .reject ∧ 0xFFFF < i.addr)) ∧
  (∀ v : Payload, ({ payload := v, err := true } : Observation).accepted = none)

/-- The frame of all three instructions (R29 "an operation has no side effects"; R13): nothing but `payload_o` and
`err_o` changes, and both get a value. -/
def Obligations.OperationsChangeOnlyTheOutputs : Prop :=
  ∀ (i : Instr) (s t : State), exec i s = .next t →
    t.params = s.params ∧ t.addr_i = s.addr_i ∧ t.cmd_i = s.cmd_i ∧ t.pending = s.pending ∧
      t.observed = s.observed ∧ t.payload_o.isSome = true ∧ t.err_o.isSome = true

/-- The three class meanings together are the combined function of R57 (marked [derived: from rules R54, R55, R56]):
whatever a request decodes to, running it drives ENCODE of the request. -/
def Obligations.DecodedMeaningsRefineTheCombinedFunction : Prop :=
  ∀ (s : State) (a c : Nat) (i : Instr), decodePair s.params a c = .ok i →
    exec i s = .next { s with
      payload_o := some (encodeNec s.params a c).payload
      err_o := some (encodeNec s.params a c).err }

/-- R42 (marked [derived: from rules R40, R41, R44, R46]): the per-bit map of both formats. -/
def Obligations.EveryPayloadBitIsOneInputBit : Prop :=
  (∀ (s t : State) (a c : Nat) (v : Payload), exec (.encodeNormal a c) s = .next t → t.payload_o = some v →
    ∀ i, i < 8 → v.getLsbD (31 - i) = a.testBit i ∧ v.getLsbD (23 - i) = !a.testBit i ∧
      v.getLsbD (15 - i) = c.testBit i ∧ v.getLsbD (7 - i) = !c.testBit i) ∧
  (∀ (s t : State) (a c : Nat) (v : Payload), exec (.encodeExtended a c) s = .next t → t.payload_o = some v →
    (∀ i, i < 16 → v.getLsbD (31 - i) = a.testBit i) ∧
    (∀ i, i < 8 → v.getLsbD (15 - i) = c.testBit i ∧ v.getLsbD (7 - i) = !c.testBit i))

/-! ## The payload's fields and the laws of the encoding -/

/-- R25, whole: the fields in order, most significant first; a payload is its four fields; the normal framing is
[AddressField][AddressComplement][CommandField][CommandComplement], and in the extended framing fields 1 and 2 hold
the reversed address. -/
def Obligations.FieldsComeMostSignificantFirst : Prop :=
  (∀ v : Payload, ∃ b1 b2 b3 b4 : Byte, wireBytes v = [b1, b2, b3, b4] ∧ v = b1 ++ b2 ++ b3 ++ b4) ∧
  (∀ (s t : State) (a c : Nat) (v : Payload), exec (.encodeNormal a c) s = .next t → t.payload_o = some v →
    wireBytes v = [addrRev8 a, comp8 (addrRev8 a), cmdRev c, comp8 (cmdRev c)]) ∧
  (∀ (s t : State) (a c : Nat) (v : Payload), exec (.encodeExtended a c) s = .next t → t.payload_o = some v →
    wireBytes v = [(addrRev16 a).extractLsb' 8 8, (addrRev16 a).extractLsb' 0 8, cmdRev c, comp8 (cmdRev c)])

/-- R26 (marked [derived] and decision D18): read from bit 31 down to bit 0, a payload sends each operand's bits least
significant first, and each checksum byte's bits complemented in the same order. -/
def Obligations.WireOrderIsLeastSignificantBitFirst : Prop :=
  ∀ a c : Nat,
    wireBits (payloadNormal a c) =
      (List.range 8).map (fun i => a.testBit i) ++ (List.range 8).map (fun i => !a.testBit i) ++
      (List.range 8).map (fun i => c.testBit i) ++ (List.range 8).map (fun i => !c.testBit i) ∧
    wireBits (payloadExtended a c) =
      (List.range 16).map (fun i => a.testBit i) ++
      (List.range 8).map (fun i => c.testBit i) ++ (List.range 8).map (fun i => !c.testBit i)

/-- R62 (marked [derived: from R36]), under both policies and for rejected requests too. -/
def Obligations.OnlyTheLowCommandByteMatters : Prop :=
  ∀ (p : Params) (a c c' : Nat), c % 256 = c' % 256 →
    encodeNec p a c = encodeNec p a c' ∧ encodeNec p a c = encodeNec p a (c &&& 0xFF)

/-- R50 and R63 (marked [derived]; restricted to `err_o = 0` by C6): the command checksum of every payload, and the
address checksum of every normal one. -/
def Obligations.ChecksumBytesXorToAllOnes : Prop :=
  (∀ (p : Params) (o : Observation), o.sound p → o.err = false →
    o.payload.extractLsb' 8 8 ^^^ o.payload.extractLsb' 0 8 = 0xFF#8) ∧
  (∀ (p : Params) (a c : Nat), a ≤ 0xFF →
    (encodeNec p a c).err = false ∧
    (encodeNec p a c).payload.extractLsb' 16 8 = (encodeNec p a c).payload.extractLsb' 24 8 ^^^ 0xFF#8)

/-- R64 (its values are marked [derived: values from rules R54, R55]): 0xFF takes the normal framing and 0x100 the
extended one. -/
def Obligations.BranchBoundaryAtOneByte : Prop :=
  ∀ (p : Params) (c : Nat),
    (encodeNec p 0xFF c).payload = 0xFF00#16 ++ commandField c ∧
    (encodeNec p 0x100 c).payload = 0x0080#16 ++ commandField c ∧
    encodeNec p 0x42 0x01 = { payload := 0x42BD807F#32, err := false } ∧
    encodeNec p 0x142 0x01 = { payload := 0x4280807F#32, err := false } ∧
    (0x42#8 ^^^ 0xBD#8 = 0xFF#8 ∧ 0x42#8 ^^^ 0x80#8 = 0xC2#8)

/-- R65 (marked [derived]): the command byte and the address field can be read back from every payload with
`err_o = 0`. -/
def Obligations.OperandsAreRecoverableFromThePayload : Prop :=
  ∀ (p : Params) (a c : Nat), (encodeNec p a c).err = false →
    c % 256 = (rev8 ((encodeNec p a c).payload.extractLsb' 8 8)).toNat ∧
    (a ≤ 0xFF → a = (rev8 ((encodeNec p a c).payload.extractLsb' 24 8)).toNat) ∧
    (0xFF < a → a % 0x10000 = (rev16 ((encodeNec p a c).payload.extractLsb' 16 16)).toNat)

/-- R65 (marked [derived]): over the addresses up to 0xFFFF, two give the same payload exactly when one is a byte
`a8` other than 0xFF and the other is `{~a8, a8}`. -/
def Obligations.CollisionsAreExactlyComplementPairs : Prop :=
  ∀ (p : Params) (a b c : Nat), a < b → b ≤ 0xFFFF →
    ((encodeNec p a c).payload = (encodeNec p b c).payload ↔ a ≤ 0xFE ∧ b = (0xFF - a) * 256 + a)

/-- R66 (marked [derived]): which top halves occur. `{y, ~y}` comes from the normal address `rev_8(y)`; any other with
a nonzero low byte comes from the extended address `rev_16(t)`; `{y, 0x00}` with `y` other than 0xFF comes from no
address up to 0xFFFF, and under `TRUNCATE` with `AW > 16` from an OVERRANGE one. -/
def Obligations.TopHalvesThatOccur : Prop :=
  (∀ (p : Params) (y : Byte) (c : Nat),
    (encodeNec p (rev8 y).toNat c).payload.extractLsb' 16 16 = y ++ ~~~y) ∧
  (∀ (p : Params) (t : Half) (c : Nat), t.extractLsb' 0 8 ≠ 0#8 → (∀ y : Byte, t ≠ y ++ ~~~y) →
    0xFF < (rev16 t).toNat ∧ (encodeNec p (rev16 t).toNat c).payload.extractLsb' 16 16 = t) ∧
  (∀ (p : Params) (y : Byte) (a c : Nat), y ≠ 0xFF#8 → a ≤ 0xFFFF →
    (encodeNec p a c).payload.extractLsb' 16 16 ≠ y ++ 0#8) ∧
  (∀ (p : Params) (y : Byte) (c : Nat), p.policy = .truncate → 16 < p.aw →
    ∃ a, 0xFFFF < a ∧ a < 2 ^ p.aw ∧ (encodeNec p a c).payload.extractLsb' 16 16 = y ++ 0#8) ∧
  (∀ (p : Params) (a c : Nat), (encodeNec p a c).err = true →
    encodeNec p a c = { payload := 0x00000000#32, err := true })

/-- R65 "exactly 255 colliding pairs over [0, 0xFFFF]" and R66 "exactly 65281 of the 65536 top halves occur" (both
marked [derived]). -/
def Obligations.CountsOfCollisionsAndTopHalves : Prop :=
  ∀ (p : Params) (c : Nat),
    Set.ncard {ab : Nat × Nat | ab.1 < ab.2 ∧ ab.2 ≤ 0xFFFF ∧
      (encodeNec p ab.1 c).payload = (encodeNec p ab.2 c).payload} = 255 ∧
    Set.ncard {t : Half | ∃ a, a ≤ 0xFFFF ∧ (encodeNec p a c).payload.extractLsb' 16 16 = t} = 65281

/-! ## The machine -/

/-- After power-up the ports hold no request and the outputs have no value (R81, R82, 95 L3; how the model writes
that down is its own: log 3, log 4, log 5), at the parameters R7 takes. -/
def Obligations.ResetPortsHoldNoRequest : Prop :=
  State.reset.params.aw = 32 ∧ State.reset.params.cw = 32 ∧ State.reset.params.policy = .truncate ∧
  State.reset.addr_i = List.replicate 32 .unknown ∧ State.reset.cmd_i = List.replicate 32 .unknown ∧
  State.reset.payload_o = none ∧ State.reset.err_o = some false ∧
  State.reset.pending = [] ∧ State.reset.observed = [] ∧ State.reset.request = none

/-- The invariant holds after power-up, for every legal choice of the parameters. -/
def Obligations.PowerUpIsWellFormed : Prop := ∀ p : Params, (State.powerUp p).wf = true

/-- A step that holds the inputs is `exec` of the decoded request on the ports; the only thing the step adds is that
the host's `hold` is taken off its list (log 5, log 6). -/
def Obligations.StepRunsTheDecodedRequest : Prop :=
  ∀ (s : State) (a c : Nat) (i : Instr), s.holding = true → s.request = some (a, c) →
    decodePair s.params a c = .ok i → step s = exec i s.advance

/-- A request word placed on the ports (log 8) is the next thing that is decoded and run. -/
def Obligations.PlacedWordRunsNext : Prop :=
  ∀ (s : State) (nbits w : Nat) (i : Instr), w < 2 ^ nbits → decodeReq s.params w = .ok i →
    step (s.withFetchWord nbits w) = exec i (s.withFetchWord nbits w)

/-- R20: once the inputs have been stable, `(payload_o, err_o) = ENCODE(addr_i, cmd_i)`, for every request that fits
the ports. That the host's action is taken off its list is the model's (log 5), and that a host with nothing pending
holds its inputs is the model's choice (log 6). -/
def Obligations.HeldInputsDriveEncodeOfTheInputs : Prop :=
  ∀ (s : State) (a c : Nat), s.portsWide = true → s.holding = true → s.request = some (a, c) →
    step s = .next { s.advance with
      payload_o := some (encodeNec s.params a c).payload
      err_o := some (encodeNec s.params a c).err }

/-- R72: every request that is driven completes, with a value on both outputs; "no hang, no stuck state and no partial
result". That a host with nothing pending holds its inputs, and so that its request is evaluated, is the model's choice
(log 6). -/
def Obligations.EveryDrivenRequestCompletes : Prop :=
  ∀ s : State, s.portsWide = true → s.holding = true → Level.unknown ∉ s.addr_i → Level.unknown ∉ s.cmd_i →
    ∃ t v b, step s = .next t ∧ t.payload_o = some v ∧ t.err_o = some b

/-- R84 (decision D19): holding the inputs is refused exactly when a bit of them is undriven or unknown. That a host
with nothing pending holds its inputs, and is refused alike, is the model's choice (log 6). -/
def Obligations.HoldIsRefusedExactlyOnUndefinedLevels : Prop :=
  ∀ s : State, s.portsWide = true → s.holding = true →
    ((Level.unknown ∈ s.addr_i ∨ Level.unknown ∈ s.cmd_i) ↔ step s = .refused .undrivenInput)

/-- R82, R85 and U4 (decisions D12, D13): a sample is refused exactly when `payload_o` has no value; otherwise it gives
the host both outputs and changes nothing of the block (R29). The lists of actions and of observations are the model's
(log 5). -/
def Obligations.SampleNeedsSettledOutputs : Prop :=
  ∀ (s : State) (rest : List HostAction), s.wf = true → s.pending = .sample :: rest →
    (s.payload_o = none ↔ step s = .refused .unsettledSample) ∧
    (∀ v, s.payload_o = some v → ∃ b, s.err_o = some b ∧
      step s = .next { s with pending := rest, observed := s.observed ++ [{ payload := v, err := b }] })

/-- R85 (decisions D12, D13), R68 and C9: after a change of `addr_i` or `cmd_i` the outputs have no value, except that
`err_o` is the constant 0 where no error can occur, under `TRUNCATE` and with `AW = 16` (R7); presenting what is
already there changes nothing (R29; log 10). A drive as one step is the model's (log 5). -/
def Obligations.InputChangeUnsettlesTheOutputs : Prop :=
  ∀ (s : State) (ls : List Level) (rest : List HostAction),
    (s.pending = .driveAddr ls :: rest → ∃ t, step s = .next t ∧ t.addr_i = connect s.params.aw ls ∧
      t.cmd_i = s.cmd_i ∧ t.pending = rest ∧ t.observed = s.observed ∧
      (t.addr_i ≠ s.addr_i → t.payload_o = none ∧
        t.err_o = if s.params.policy = .reject ∧ 16 < s.params.aw then none else some false) ∧
      (t.addr_i = s.addr_i → t = { s with pending := rest })) ∧
    (s.pending = .driveCmd ls :: rest → ∃ t, step s = .next t ∧ t.cmd_i = connect s.params.cw ls ∧
      t.addr_i = s.addr_i ∧ t.pending = rest ∧ t.observed = s.observed ∧
      (t.cmd_i ≠ s.cmd_i → t.payload_o = none ∧
        t.err_o = if s.params.policy = .reject ∧ 16 < s.params.aw then none else some false) ∧
      (t.cmd_i = s.cmd_i → t = { s with pending := rest }))

/-- R29 (decisions D12, D13): evaluating the same inputs again changes nothing. That a host with nothing pending goes on
holding them is the model's choice (log 6). -/
def Obligations.EvaluatingAgainChangesNothing : Prop :=
  ∀ s t : State, s.pending = [] → step s = .next t → step t = .next t

/-- R86 (decision D14): if the host changes only the address and holds, the block encodes the new address with the
command that is still on its port. The actions as steps are the model's (log 5). -/
def Obligations.MixedPairIsEncodedAsItStands : Prop :=
  ∀ (s : State) (a c a' : Nat) (rest : List HostAction), s.portsWide = true → s.request = some (a, c) →
    a' < 2 ^ s.params.aw → s.pending = .driveAddr (levelsOf s.params.aw a') :: .hold :: rest →
    ∃ t, Host.Core.run Sys2Proof.core 2 s = .next t ∧ t.payload_o = some (encodeNec s.params a' c).payload ∧
      t.err_o = some (encodeNec s.params a' c).err ∧ t.pending = rest

/-- R68 (decision D5): `err_o` is `REJECT` and `addr_i[AW-1:16] != 0` whenever the outputs have a value, and it
is 0 in every well-formed state under `TRUNCATE`, and with `AW = 16` under either policy (R7). -/
def Obligations.ErrorLevelFollowsTheAddress : Prop :=
  ∀ s : State, s.wf = true →
    (s.params.policy = .truncate ∨ s.params.aw = 16 → s.err_o = some false) ∧
    (∀ v a c, s.payload_o = some v → s.request = some (a, c) →
      s.err_o = some (decide (s.params.policy = .reject) && decide (a >>> 16 ≠ 0)))

/-- R61, and R13 "no value computed by one operation can affect any later operation": two states with the same
parameters and the same inputs, whatever outputs and observations they hold, evaluate to the same outputs or refuse
alike. That they refuse alike rests on decision D19 (an undefined input) and on log 16 (a State literal that does not
fit its ports), and that a host with nothing pending holds its inputs is the model's choice (log 6). -/
def Obligations.OutputsDependOnlyOnTheInputs : Prop :=
  ∀ s s' : State, s.params = s'.params → s.addr_i = s'.addr_i → s.cmd_i = s'.cmd_i →
    s.holding = true → s'.holding = true →
    (∃ t t', step s = .next t ∧ step s' = .next t' ∧ t.payload_o = t'.payload_o ∧ t.err_o = t'.err_o) ∨
    (∃ r, step s = .refused r ∧ step s' = .refused r)

/-- R22, whole: every value that fits `cmd_i` is a legal command, and its bits above 7 never affect an output: with
another command of the same low byte on the port, the block completes with the same outputs. That a host with nothing
pending holds its inputs, and so that its request completes, is the model's choice (log 6). -/
def Obligations.HighCommandBitsNeverReachAnOutput : Prop :=
  ∀ (s : State) (a c c' : Nat), s.portsWide = true → s.holding = true → s.request = some (a, c) →
    c' < 2 ^ s.params.cw → c % 256 = c' % 256 →
    ∃ t t', step s = .next t ∧ step { s with cmd_i := levelsOf s.params.cw c' } = .next t' ∧
      t.payload_o = t'.payload_o ∧ t.err_o = t'.err_o

/-- R7 (decisions D2, D4) and R67: with `AW = 16` the policy has no effect. A block built with another policy powers up
alike, takes the same steps from every state and is refused alike. The steps are the model's (log 5, log 6). -/
def Obligations.PolicyHasNoEffectAtSixteenAddressBits : Prop :=
  ∀ q : Policy,
    (∀ p : Params, p.aw = 16 → (State.powerUp p).withPolicy q = State.powerUp { p with policy := q } ∧
      ∀ a c : Nat, a < 2 ^ p.aw → encodeNec { p with policy := q } a c = encodeNec p a c) ∧
    (∀ s : State, s.params.aw = 16 →
      (∀ t, step s = .next t → step (s.withPolicy q) = .next (t.withPolicy q)) ∧
      (∀ r, step s = .refused r → step (s.withPolicy q) = .refused r))

/-- R17 (decision D4): no step changes `AW`, `CW` or `ADDR_OVERRANGE_POLICY`. -/
def Obligations.ParametersNeverChange : Prop :=
  ∀ s t : State, step s = .next t → t.params = s.params

/-- R19, R20, R68: every step from a well-formed state gives a well-formed state. The ports keep their widths, and
outputs that have a value are ENCODE of the inputs that stand on the ports. -/
def Obligations.WellFormedStateIsKept : Prop :=
  ∀ s t : State, s.wf = true → step s = .next t → t.wf = true

/-- D21 with R20: whatever the host samples is ENCODE of some request that fits the ports; every step keeps that of all
observations. -/
def Obligations.ObservationsAreEncodings : Prop :=
  ∀ s t : State, s.wf = true → (∀ o ∈ s.observed, o.sound s.params) → step s = .next t →
    ∀ o ∈ t.observed, o.sound t.params

/-- R11, R31 and D21: from any state with ports of the right widths, a host that presents any list of requests, each
held and sampled (log 5, log 8), observes exactly ENCODE of each, in order: no request affects another. -/
def Obligations.RequestsAreObservedAsTheirEncodings : Prop :=
  ∀ (reqs : List (Nat × Nat)) (s : State), s.portsWide = true →
    (∀ r ∈ reqs, r.1 < 2 ^ s.params.aw ∧ r.2 < 2 ^ s.params.cw) →
    s.pending = reqs.flatMap (fun r => requestActions s.params r.1 r.2) →
    ∃ t, Host.Core.run Sys2Proof.core (4 * reqs.length) s = .next t ∧
      t.observed = s.observed ++ reqs.map (fun r => encodeNec s.params r.1 r.2) ∧
      t.pending = [] ∧ t.params = s.params
end

