-- ==== Sys2Proof/Laws/Bits.lean ====
section
/-! SUPPORT. The bits of the datapath units, of the operand slices and of the input ports. -/

namespace Sys2Proof.Machine

/-! ## Units and slices, bit by bit -/

theorem rev_bit {w : Nat} (v : BitVec w) (i : Nat) :
    (rev v).getLsbD i = (decide (i < w) && v.getLsbD (w - 1 - i)) := by
  by_cases h : i < w <;> simp [rev, BitVec.getLsbD_ofFnLE, h]

@[simp] theorem rev8_bit (b : Byte) (i : Nat) : (rev8 b).getLsbD i = (decide (i < 8) && b.getLsbD (7 - i)) :=
  rev_bit b i

@[simp] theorem rev16_bit (h : Half) (i : Nat) :
    (rev16 h).getLsbD i = (decide (i < 16) && h.getLsbD (15 - i)) := rev_bit h i

@[simp] theorem comp8_bit (b : Byte) (i : Nat) : (comp8 b).getLsbD i = (decide (i < 8) && !b.getLsbD i) := by
  have h : comp8 b = ~~~b := by rw [comp8, BitVec.xor_comm]; exact BitVec.allOnes_xor
  simp [h]

@[simp] theorem cat8_bit (x y : Byte) (i : Nat) :
    (cat8 x y).getLsbD i = if i < 8 then y.getLsbD i else x.getLsbD (i - 8) := BitVec.getLsbD_append

@[simp] theorem cat16_bit (x y : Half) (i : Nat) :
    (cat16 x y).getLsbD i = if i < 16 then y.getLsbD i else x.getLsbD (i - 16) := BitVec.getLsbD_append

@[simp] theorem a8_bit (a i : Nat) : (a8 a).getLsbD i = (decide (i < 8) && a.testBit i) := by
  simp [a8, BitVec.getLsbD_ofNat]

@[simp] theorem a16_bit (a i : Nat) : (a16 a).getLsbD i = (decide (i < 16) && a.testBit i) := by
  simp [a16, BitVec.getLsbD_ofNat]

@[simp] theorem cmd8_bit (c i : Nat) : (cmd8 c).getLsbD i = (decide (i < 8) && c.testBit i) := by
  simp [cmd8, BitVec.getLsbD_ofNat]

/-! The same for a bit under its bound, the form that simp brings bits into. -/

@[simp] theorem rev_getElem {w : Nat} (v : BitVec w) (i : Nat) (h : i < w) : (rev v)[i] = v[w - 1 - i] := by
  rw [← BitVec.getLsbD_eq_getElem, rev_bit, ← BitVec.getLsbD_eq_getElem]; simp only [h, decide_true, Bool.true_and]

@[simp] theorem rev8_getElem (b : Byte) (i : Nat) (h : i < 8) : (rev8 b)[i] = b[7 - i] := rev_getElem b i h

@[simp] theorem rev16_getElem (v : Half) (i : Nat) (h : i < 16) : (rev16 v)[i] = v[15 - i] := rev_getElem v i h

@[simp] theorem comp8_getElem (b : Byte) (i : Nat) (h : i < 8) : (comp8 b)[i] = !b[i] := by
  rw [← BitVec.getLsbD_eq_getElem, comp8_bit, ← BitVec.getLsbD_eq_getElem]; simp only [h, decide_true, Bool.true_and]

@[simp] theorem cat8_getElem (x y : Byte) (i : Nat) (h : i < 16) :
    (cat8 x y)[i] = if i < 8 then y.getLsbD i else x.getLsbD (i - 8) := by
  rw [← BitVec.getLsbD_eq_getElem, cat8_bit]

@[simp] theorem cat16_getElem (x y : Half) (i : Nat) (h : i < 32) :
    (cat16 x y)[i] = if i < 16 then y.getLsbD i else x.getLsbD (i - 16) := by
  rw [← BitVec.getLsbD_eq_getElem, cat16_bit]

/-- The high and low fields of a concatenation. -/
@[simp] theorem cat8_high (x y : Byte) : (cat8 x y).extractLsb' 8 8 = x := by
  apply BitVec.eq_of_getLsbD_eq; intro i hi; simp [hi]

@[simp] theorem cat8_low (x y : Byte) : (cat8 x y).extractLsb' 0 8 = y := by
  apply BitVec.eq_of_getLsbD_eq; intro i hi; simp [hi]

@[simp] theorem cat16_high (x y : Half) : (cat16 x y).extractLsb' 16 16 = x := by
  apply BitVec.eq_of_getLsbD_eq; intro i hi; simp [hi]

@[simp] theorem cat16_low (x y : Half) : (cat16 x y).extractLsb' 0 16 = y := by
  apply BitVec.eq_of_getLsbD_eq; intro i hi; simp [hi]

@[simp] theorem a8_getElem (a i : Nat) (h : i < 8) : (a8 a)[i] = a.testBit i := by
  rw [← BitVec.getLsbD_eq_getElem, a8_bit]; simp only [h, decide_true, Bool.true_and]

@[simp] theorem a16_getElem (a i : Nat) (h : i < 16) : (a16 a)[i] = a.testBit i := by
  rw [← BitVec.getLsbD_eq_getElem, a16_bit]; simp only [h, decide_true, Bool.true_and]

@[simp] theorem cmd8_getElem (c i : Nat) (h : i < 8) : (cmd8 c)[i] = c.testBit i := by
  rw [← BitVec.getLsbD_eq_getElem, cmd8_bit]; simp only [h, decide_true, Bool.true_and]

/-! ## Ports -/

@[simp] theorem levelsOf_length (n v : Nat) : (levelsOf n v).length = n := by
  induction n generalizing v with
  | zero => rfl
  | succ n ih => simp [levelsOf, ih]

@[simp] theorem connect_length (n : Nat) (ls : List Level) : (connect n ls).length = n := by
  induction n generalizing ls with
  | zero => rfl
  | succ n ih => cases ls <;> simp [connect, ih]

/-- A list of the port's own length goes onto its wires as it is. -/
theorem connect_eq_self (ls : List Level) : connect ls.length ls = ls := by
  induction ls with
  | nil => rfl
  | cons l ls ih => simp [connect, ih]

theorem connect_levelsOf (n v : Nat) : connect n (levelsOf n v) = levelsOf n v := by
  have h := connect_eq_self (levelsOf n v)
  rwa [levelsOf_length] at h

/-- The number on a port is the number that was put on its wires, less the bits that have no wire. -/
theorem portValue_levelsOf (n v : Nat) : portValue (levelsOf n v) = some (v % 2 ^ n) := by
  induction n generalizing v with
  | zero => simp [levelsOf, portValue, Nat.mod_one]
  | succ n ih =>
    have hm : v % 2 ^ (n + 1) = v % 2 + 2 * (v / 2 % 2 ^ n) := by
      rw [Nat.pow_succ, Nat.mul_comm, Nat.mod_mul]
    rcases Nat.mod_two_eq_zero_or_one v with h | h <;>
      simp [levelsOf, portValue, h, ih, hm, Nat.add_comm]

/-- The number on a port fits its wires. -/
theorem portValue_lt {ls : List Level} {v : Nat} (h : portValue ls = some v) : v < 2 ^ ls.length := by
  induction ls generalizing v with
  | nil => cases h; decide
  | cons l ls ih =>
    cases l with
    | unknown => simp [portValue] at h
    | low =>
      obtain ⟨u, hu, rfl⟩ := Option.map_eq_some_iff.mp h
      have := ih hu
      simp only [List.length_cons, Nat.pow_succ]; omega
    | high =>
      obtain ⟨u, hu, rfl⟩ := Option.map_eq_some_iff.mp h
      have := ih hu
      simp only [List.length_cons, Nat.pow_succ]; omega

/-- A port has a number exactly when no wire is undefined (R84). -/
theorem portValue_eq_none {ls : List Level} : portValue ls = none ↔ Level.unknown ∈ ls := by
  induction ls with
  | nil => simp [portValue]
  | cons l ls ih => cases l <;> simp [portValue, ih]

theorem request_eq_some {s : State} {a c : Nat} :
    s.request = some (a, c) ↔ portValue s.addr_i = some a ∧ portValue s.cmd_i = some c := by
  unfold State.request
  cases portValue s.addr_i <;> cases portValue s.cmd_i <;> simp

theorem request_eq_none {s : State} :
    s.request = none ↔ Level.unknown ∈ s.addr_i ∨ Level.unknown ∈ s.cmd_i := by
  rw [← portValue_eq_none, ← portValue_eq_none]
  unfold State.request
  cases portValue s.addr_i <;> cases portValue s.cmd_i <;> simp

end Sys2Proof.Machine
end

