-- ==== Sys2Proof/Laws/PerInstr.lean ====
section
/-! SUPPORT. Facts about the instructions as syntax, one lemma per constructor. -/

namespace Sys2Proof.Laws.EncodeFits

/-- The request word of a well-formed instruction has `AW + CW` bits (R33). -/
def Statement (i : Instr) : Prop := ∀ p : Params, i.wf p = true → encode p i < 2 ^ (p.aw + p.cw)

/-- A pair that fits its ports makes a word of `AW + CW` bits. -/
theorem reqWord_lt {p : Params} {a c : Nat} (ha : a < 2 ^ p.aw) (hc : c < 2 ^ p.cw) :
    reqWord p a c < 2 ^ (p.aw + p.cw) := by
  unfold reqWord
  calc a * 2 ^ p.cw + c < (a + 1) * 2 ^ p.cw := by rw [Nat.add_mul]; omega
    _ ≤ 2 ^ p.aw * 2 ^ p.cw := Nat.mul_le_mul_right _ ha
    _ = 2 ^ (p.aw + p.cw) := (Nat.pow_add ..).symm

/-- Well-formedness includes that the operands fit their ports. -/
theorem fits_of_wf {p : Params} {i : Instr} (h : i.wf p = true) : i.addr < 2 ^ p.aw ∧ i.cmd < 2 ^ p.cw := by
  simp only [Instr.wf, Instr.fits, Bool.and_eq_true, decide_eq_true_eq] at h
  exact h.1

theorem encodeNormal (a c : Nat) : Statement (.encodeNormal a c) := fun _ h =>
  reqWord_lt (fits_of_wf h).1 (fits_of_wf h).2

theorem encodeExtended (a c : Nat) : Statement (.encodeExtended a c) := fun _ h =>
  reqWord_lt (fits_of_wf h).1 (fits_of_wf h).2

theorem encodeOverrange (a c : Nat) : Statement (.encodeOverrange a c) := fun _ h =>
  reqWord_lt (fits_of_wf h).1 (fits_of_wf h).2

end Sys2Proof.Laws.EncodeFits
end

