-- ==== Sys2Proof/Laws/State.lean ====
section
/-! SUPPORT. One lemma per field and update of State, true by unfolding, so that no later proof opens an update. -/

namespace Sys2Proof.Machine

/-- Under `TRUNCATE` `err_o` is the constant 0 (R68). -/
theorem errAtRest_of_truncate {p : Params} (h : p.policy = .truncate) : errAtRest p = some false := by
  simp [errAtRest, canReject, h]

/-- At `AW = 16` `err_o` is the constant 0 under either policy (R7, R68). -/
theorem errAtRest_of_narrow {p : Params} (h : p.aw = 16) : errAtRest p = some false := by
  simp [errAtRest, canReject, h]

/-- Where an error can occur, `err_o` has no value until the inputs have settled (R82, R85). -/
theorem errAtRest_of_canReject {p : Params} (h : p.policy = .reject) (hw : 16 < p.aw) : errAtRest p = none := by
  simp [errAtRest, canReject, h, hw]

namespace State

variable (s : State) (v : Payload) (b : Bool)

@[simp] theorem driveOutputs_params : (s.driveOutputs v b).params = s.params := rfl
@[simp] theorem driveOutputs_addr_i : (s.driveOutputs v b).addr_i = s.addr_i := rfl
@[simp] theorem driveOutputs_cmd_i : (s.driveOutputs v b).cmd_i = s.cmd_i := rfl
@[simp] theorem driveOutputs_payload_o : (s.driveOutputs v b).payload_o = some v := rfl
@[simp] theorem driveOutputs_err_o : (s.driveOutputs v b).err_o = some b := rfl
@[simp] theorem driveOutputs_pending : (s.driveOutputs v b).pending = s.pending := rfl
@[simp] theorem driveOutputs_observed : (s.driveOutputs v b).observed = s.observed := rfl
@[simp] theorem driveOutputs_request : (s.driveOutputs v b).request = s.request := rfl

@[simp] theorem unsettle_params : s.unsettle.params = s.params := rfl
@[simp] theorem unsettle_addr_i : s.unsettle.addr_i = s.addr_i := rfl
@[simp] theorem unsettle_cmd_i : s.unsettle.cmd_i = s.cmd_i := rfl
@[simp] theorem unsettle_payload_o : s.unsettle.payload_o = none := rfl
@[simp] theorem unsettle_err_o : s.unsettle.err_o = errAtRest s.params := rfl
@[simp] theorem unsettle_pending : s.unsettle.pending = s.pending := rfl
@[simp] theorem unsettle_observed : s.unsettle.observed = s.observed := rfl
@[simp] theorem unsettle_request : s.unsettle.request = s.request := rfl

/-- Driving the outputs twice leaves the later value (R29). -/
@[simp] theorem driveOutputs_driveOutputs (v' : Payload) (b' : Bool) :
    (s.driveOutputs v b).driveOutputs v' b' = s.driveOutputs v' b' := rfl

/-- Taking the next host action off the list leaves the request on the ports. -/
@[simp] theorem pending_update_request (rest : List HostAction) :
    ({ s with pending := rest } : State).request = s.request := rfl

end State

end Sys2Proof.Machine
end

