-- ==== Sys2Proof/Laws/Step.lean ====
section
/-! SUPPORT. For each shared operation and for the step, once, everything it can do. Later proofs cite these and do
not unfold the operations. -/

namespace Sys2Proof

/-! ## Decoding -/

/-- Everything the decoder can answer. -/
theorem decodePair_cases {p : Params} {a c : Nat} {i : Instr} (h : decodePair p a c = .ok i) :
    a < 2 ^ p.aw ∧ c < 2 ^ p.cw ∧
      ((a ≤ 0xFF ∧ i = .encodeNormal a c) ∨ (0xFF < a ∧ a ≤ 0xFFFF ∧ i = .encodeExtended a c) ∨
        (0xFFFF < a ∧ i = .encodeOverrange a c)) := by
  unfold decodePair at h
  simp only [Nat.shiftRight_eq_div_pow] at h
  split at h
  · cases h
  split at h
  · cases h
  refine ⟨by omega, by omega, ?_⟩
  split at h
  · cases h; exact .inl ⟨by omega, rfl⟩
  split at h
  · cases h; exact .inr (.inl ⟨by omega, by omega, rfl⟩)
  · cases h; exact .inr (.inr ⟨by omega, rfl⟩)

/-- Every pair that fits the ports decodes (R38). -/
theorem decodePair_ok {p : Params} {a c : Nat} (ha : a < 2 ^ p.aw) (hc : c < 2 ^ p.cw) :
    ∃ i, decodePair p a c = .ok i := by
  unfold decodePair
  rw [if_neg (by omega), if_neg (by omega)]
  split
  · exact ⟨_, rfl⟩
  · split <;> exact ⟨_, rfl⟩

namespace Machine

/-! ## Running a request -/

/-- An instruction drives the outputs and does nothing else (R29, R69). -/
theorem exec_cases (i : Instr) (s : State) : ∃ v b, exec i s = .next (s.driveOutputs v b) := by
  cases i with
  | encodeNormal a c => exact ⟨_, _, rfl⟩
  | encodeExtended a c => exact ⟨_, _, rfl⟩
  | encodeOverrange a c =>
    simp only [exec, execEncodeOverrange]
    split <;> exact ⟨_, _, rfl⟩

/-- Everything ENCODE can answer: the normal payload, the extended payload, or the error (R54, R55, R56). -/
theorem encodeNec_cases (p : Params) (a c : Nat) :
    (a ≤ 0xFF ∧ encodeNec p a c = { payload := payloadNormal a c, err := false }) ∨
    (0xFF < a ∧ (a ≤ 0xFFFF ∨ p.policy = .truncate) ∧
      encodeNec p a c = { payload := payloadExtended a c, err := false }) ∨
    (0xFFFF < a ∧ p.policy = .reject ∧ encodeNec p a c = { payload := 0#32, err := true }) := by
  unfold encodeNec
  by_cases hr : addressOutOfRange p a = true
  · rw [if_pos hr]
    simp only [addressOutOfRange, overrange, Bool.and_eq_true, decide_eq_true_eq] at hr
    exact .inr (.inr ⟨hr.2, hr.1, rfl⟩)
  · rw [if_neg hr]
    simp only [addressOutOfRange, overrange, Bool.and_eq_true, decide_eq_true_eq, not_and] at hr
    by_cases he : ext a = true
    · rw [if_pos he]
      rw [ext, decide_eq_true_eq] at he
      refine .inr (.inl ⟨he, ?_, rfl⟩)
      cases hp : p.policy with
      | truncate => exact .inr rfl
      | reject => exact .inl (by have := hr hp; omega)
    · rw [if_neg he]
      rw [ext, decide_eq_true_eq] at he
      exact .inl ⟨by omega, rfl⟩

/-- What the block does with the request on its ports: refuse an undefined bit, or a literal that does not fit, or
run the decoded instruction. -/
theorem evaluate_cases (s : State) :
    (s.request = none ∧ s.evaluate = .refused .undrivenInput) ∨
    (∃ a c e, s.request = some (a, c) ∧ decodePair s.params a c = .error e ∧
      s.evaluate = .refused .requestDoesNotFit) ∨
    (∃ a c i, s.request = some (a, c) ∧ decodePair s.params a c = .ok i ∧ s.evaluate = exec i s) := by
  unfold State.evaluate
  rcases hr : s.request with _ | ⟨a, c⟩
  · exact .inl ⟨rfl, rfl⟩
  · rcases hd : decodePair s.params a c with e | i
    · exact .inr (.inl ⟨a, c, e, rfl, hd, by simp [hd]⟩)
    · exact .inr (.inr ⟨a, c, i, rfl, hd, by simp [hd]⟩)

/-- With a decodable request on the ports, the block runs it. -/
theorem evaluate_eq_exec {s : State} {a c : Nat} {i : Instr} (hr : s.request = some (a, c))
    (hd : decodePair s.params a c = .ok i) : s.evaluate = exec i s := by
  simp [State.evaluate, hr, hd]

/-- A sample gives both outputs, or is refused. -/
theorem sampleOutputs_cases (s : State) :
    (∃ v b, s.payload_o = some v ∧ s.err_o = some b ∧
      s.sampleOutputs = .next { s with observed := s.observed ++ [{ payload := v, err := b }] }) ∨
    ((s.payload_o = none ∨ s.err_o = none) ∧ s.sampleOutputs = .refused .unsettledSample) := by
  unfold State.sampleOutputs
  rcases hv : s.payload_o with _ | v
  · exact .inr ⟨.inl rfl, rfl⟩
  · rcases hb : s.err_o with _ | b
    · exact .inr ⟨.inr rfl, rfl⟩
    · exact .inl ⟨v, b, rfl, rfl, rfl⟩

/-- Driving `addr_i` leaves the state, or changes that port and unsettles the outputs. -/
theorem driveAddrPort_cases (s : State) (ls : List Level) :
    (connect s.params.aw ls = s.addr_i ∧ s.driveAddrPort ls = s) ∨
    (connect s.params.aw ls ≠ s.addr_i ∧
      s.driveAddrPort ls = ({ s with addr_i := connect s.params.aw ls } : State).unsettle) := by
  by_cases h : connect s.params.aw ls = s.addr_i
  · exact .inl ⟨h, by simp [State.driveAddrPort, h]⟩
  · exact .inr ⟨h, by simp [State.driveAddrPort, h]⟩

/-- Driving `cmd_i` leaves the state, or changes that port and unsettles the outputs. -/
theorem driveCmdPort_cases (s : State) (ls : List Level) :
    (connect s.params.cw ls = s.cmd_i ∧ s.driveCmdPort ls = s) ∨
    (connect s.params.cw ls ≠ s.cmd_i ∧
      s.driveCmdPort ls = ({ s with cmd_i := connect s.params.cw ls } : State).unsettle) := by
  by_cases h : connect s.params.cw ls = s.cmd_i
  · exact .inl ⟨h, by simp [State.driveCmdPort, h]⟩
  · exact .inr ⟨h, by simp [State.driveCmdPort, h]⟩

/-- A number driven on `addr_i` stands there; nothing else but the outputs changes. -/
theorem driveAddrPort_levelsOf (s : State) (v : Nat) :
    (s.driveAddrPort (levelsOf s.params.aw v)).addr_i = levelsOf s.params.aw v ∧
    (s.driveAddrPort (levelsOf s.params.aw v)).cmd_i = s.cmd_i ∧
    (s.driveAddrPort (levelsOf s.params.aw v)).params = s.params ∧
    (s.driveAddrPort (levelsOf s.params.aw v)).pending = s.pending ∧
    (s.driveAddrPort (levelsOf s.params.aw v)).observed = s.observed := by
  rcases driveAddrPort_cases s (levelsOf s.params.aw v) with ⟨h, e⟩ | ⟨h, e⟩ <;> rw [e] <;>
    simp_all [connect_levelsOf]

/-- A number driven on `cmd_i` stands there; nothing else but the outputs changes. -/
theorem driveCmdPort_levelsOf (s : State) (v : Nat) :
    (s.driveCmdPort (levelsOf s.params.cw v)).cmd_i = levelsOf s.params.cw v ∧
    (s.driveCmdPort (levelsOf s.params.cw v)).addr_i = s.addr_i ∧
    (s.driveCmdPort (levelsOf s.params.cw v)).params = s.params ∧
    (s.driveCmdPort (levelsOf s.params.cw v)).pending = s.pending ∧
    (s.driveCmdPort (levelsOf s.params.cw v)).observed = s.observed := by
  rcases driveCmdPort_cases s (levelsOf s.params.cw v) with ⟨h, e⟩ | ⟨h, e⟩ <;> rw [e] <;>
    simp_all [connect_levelsOf]

/-! ## The step -/

theorem step_idle {s : State} (h : s.pending = []) : step s = s.evaluate := by simp [step, h]

theorem step_act {s : State} {act : HostAction} {rest : List HostAction} (h : s.pending = act :: rest) :
    step s = ({ s with pending := rest } : State).perform act := by simp [step, h]

/-- Every step that gives a next state takes the next action off the list (`u` below) and then drives one port,
drives the outputs for the request on the ports, or adds a sample. -/
theorem step_cases {s t : State} (h : step s = .next t) :
    ∃ u : State, (∃ rest, u = { s with pending := rest }) ∧
      ((∃ ls, t = u.driveAddrPort ls) ∨ (∃ ls, t = u.driveCmdPort ls) ∨
        (∃ a c i v b, u.request = some (a, c) ∧ decodePair u.params a c = .ok i ∧
          exec i u = .next t ∧ t = u.driveOutputs v b) ∨
        (∃ v b, u.payload_o = some v ∧ u.err_o = some b ∧
          t = { u with observed := u.observed ++ [{ payload := v, err := b }] })) := by
  have hev : ∀ u : State, u.evaluate = .next t → ∃ a c i v b, u.request = some (a, c) ∧
      decodePair u.params a c = .ok i ∧ exec i u = .next t ∧ t = u.driveOutputs v b := by
    intro u hu
    rcases evaluate_cases u with ⟨-, he⟩ | ⟨a, c, e, -, -, he⟩ | ⟨a, c, i, hr, hd, he⟩
    · rw [he] at hu; cases hu
    · rw [he] at hu; cases hu
    · obtain ⟨v, b, hx⟩ := exec_cases i u
      have ht : t = u.driveOutputs v b := by rw [he, hx] at hu; cases hu; rfl
      exact ⟨a, c, i, v, b, hr, hd, ht ▸ hx, ht⟩
  rcases hp : s.pending with _ | ⟨act, rest⟩
  · rw [step_idle hp] at h
    exact ⟨s, ⟨[], by rw [← hp]⟩, .inr (.inr (.inl (hev s h)))⟩
  · rw [step_act hp] at h
    refine ⟨{ s with pending := rest }, ⟨rest, rfl⟩, ?_⟩
    cases act with
    | driveAddr ls => cases h; exact .inl ⟨ls, rfl⟩
    | driveCmd ls => cases h; exact .inr (.inl ⟨ls, rfl⟩)
    | hold => exact .inr (.inr (.inl (hev _ h)))
    | sample =>
      rcases sampleOutputs_cases { s with pending := rest } with ⟨v, b, hv, hb, he⟩ | ⟨-, he⟩
      · exact .inr (.inr (.inr ⟨v, b, hv, hb, by
          have := he.symm.trans h
          cases this; rfl⟩))
      · have := he.symm.trans h
        cases this

/-- A step that holds the inputs evaluates the request on them. -/
theorem step_holding {s : State} (h : s.holding = true) : step s = s.advance.evaluate := by
  unfold State.holding at h
  split at h
  · rename_i hp
    have ha : s.advance = s := by cases s; simp_all [State.advance]
    rw [step_idle hp, ha]
  · rename_i rest hp
    rw [step_act hp]
    simp [State.advance, hp, State.perform]
  · cases h

/-! ## A block built with another policy -/

section
variable (s : State) (q : Policy)
@[simp] theorem withPolicy_aw : (s.withPolicy q).params.aw = s.params.aw := rfl
@[simp] theorem withPolicy_cw : (s.withPolicy q).params.cw = s.params.cw := rfl
@[simp] theorem withPolicy_policy : (s.withPolicy q).params.policy = q := rfl
@[simp] theorem withPolicy_addr_i : (s.withPolicy q).addr_i = s.addr_i := rfl
@[simp] theorem withPolicy_cmd_i : (s.withPolicy q).cmd_i = s.cmd_i := rfl
@[simp] theorem withPolicy_payload_o : (s.withPolicy q).payload_o = s.payload_o := rfl
@[simp] theorem withPolicy_err_o : (s.withPolicy q).err_o = s.err_o := rfl
@[simp] theorem withPolicy_pending : (s.withPolicy q).pending = s.pending := rfl
@[simp] theorem withPolicy_observed : (s.withPolicy q).observed = s.observed := rfl
@[simp] theorem withPolicy_request : (s.withPolicy q).request = s.request := rfl
end

/-- The first step of a run that goes on. -/
theorem run_succ {k : Nat} {s t : State} (h : step s = .next t) :
    Host.Core.run Sys2Proof.core (k + 1) s = Host.Core.run Sys2Proof.core k t := by
  have h' : Sys2Proof.core.step s = .next t := h
  simp only [Host.Core.run, h']

end Machine

end Sys2Proof
end

