-- ==== Sys2Proof/Laws/Syntax.lean ====
section
/-! SUPPORT. The fields of each instruction, and when each is well-formed, so that neither is unfolded later. -/

namespace Sys2Proof.Instr

variable (a c : Nat)

@[simp] theorem addr_encodeNormal : (encodeNormal a c).addr = a := rfl
@[simp] theorem addr_encodeExtended : (encodeExtended a c).addr = a := rfl
@[simp] theorem addr_encodeOverrange : (encodeOverrange a c).addr = a := rfl
@[simp] theorem cmd_encodeNormal : (encodeNormal a c).cmd = c := rfl
@[simp] theorem cmd_encodeExtended : (encodeExtended a c).cmd = c := rfl
@[simp] theorem cmd_encodeOverrange : (encodeOverrange a c).cmd = c := rfl

variable (p : Params)

@[simp] theorem wf_encodeNormal :
    (encodeNormal a c).wf p = true ↔ (a < 2 ^ p.aw ∧ c < 2 ^ p.cw) ∧ a ≤ 0xFF := by
  simp only [wf, fits, inClass, Bool.and_eq_true, decide_eq_true_eq]; rfl

@[simp] theorem wf_encodeExtended :
    (encodeExtended a c).wf p = true ↔ (a < 2 ^ p.aw ∧ c < 2 ^ p.cw) ∧ 0xFF < a ∧ a ≤ 0xFFFF := by
  simp only [wf, fits, inClass, Bool.and_eq_true, decide_eq_true_eq]; rfl

@[simp] theorem wf_encodeOverrange :
    (encodeOverrange a c).wf p = true ↔ (a < 2 ^ p.aw ∧ c < 2 ^ p.cw) ∧ 0xFFFF < a := by
  simp only [wf, fits, inClass, Bool.and_eq_true, decide_eq_true_eq]; rfl

end Sys2Proof.Instr
end

