-- ==== Sys2Proof/Tests/Slice0.lean ====
section
/-! SUPPORT. The model's own tests. Expected values are those of spec/95_test_vectors.md (ids in the comments), or are
worked out by hand from the rules; then one witness for the hypotheses of each statement, at the boundary values of
its clauses. -/

namespace Sys2Proof.Tests

open Sys2Proof Sys2Proof.Machine

/-- A block that rejects, at the default widths. -/
def rejecting : Params := { aw := 32, cw := 32, policy := .reject }

/-- The narrowest block. -/
def narrow : Params := { aw := 16, cw := 8, policy := .reject }

/-- A block with the request word `w` on its ports and nothing pending. -/
def onPorts (p : Params) (w : Nat) : State := (State.powerUp p).presentReq w

/-- The outputs after a step, if it gives a next state with both. -/
def outputsOf : Host.Outcome State Fault Refusal → Option (Payload × Bool)
  | .next s => s.payload_o.bind fun v => s.err_o.map fun b => (v, b)
  | .fault _ => none
  | .refused _ => none

/-- The refusal of a step, if it is refused. -/
def refusalOf : Host.Outcome State Fault Refusal → Option Refusal
  | .next _ => none
  | .fault _ => none
  | .refused r => some r

/-! ## Well-formedness: one ill-formed term for each check -/

theorem test_wf_accepts : (Instr.encodeNormal 0xFF 0xFFFFFFFF).wf Params.specDefault = true := by decide
theorem test_wf_address_too_wide : (Instr.encodeOverrange 0x100000000 0).wf Params.specDefault = false := by decide
theorem test_wf_command_too_wide : (Instr.encodeNormal 0 0x100000000).wf Params.specDefault = false := by decide
theorem test_wf_normal_above_class : (Instr.encodeNormal 0x100 0).wf Params.specDefault = false := by decide
theorem test_wf_extended_below_class : (Instr.encodeExtended 0xFF 0).wf Params.specDefault = false := by decide
theorem test_wf_extended_above_class : (Instr.encodeExtended 0x10000 0).wf Params.specDefault = false := by decide
theorem test_wf_overrange_below_class : (Instr.encodeOverrange 0xFFFF 0).wf Params.specDefault = false := by decide
theorem test_wf_no_overrange_at_16_bits : (Instr.encodeOverrange 0x10000 0).wf narrow = false := by decide

/-! ## Decoding: REQ = addr_i in bits 63:32, cmd_i in bits 31:0 (R33), written bit by bit -/

/-- N-5: addr_i = 0000_0000 0000_0000 0000_0000 0100_0010, cmd_i = ... 0011_0000. -/
theorem test_decode_normal :
    decodeTableWord 64 0b0000000000000000000000000100001000000000000000000000000000110000 =
      some (.encodeNormal 0x42 0x30) := by decide

/-- E-4: addr_i = 0000_0000 0000_0000 0000_0001 0100_0010, cmd_i = ... 0000_0001. -/
theorem test_decode_extended :
    decodeTableWord 64 0b0000000000000000000000010100001000000000000000000000000000000001 =
      some (.encodeExtended 0x142 0x01) := by decide

/-- O-2: addr_i = 0000_0000 0000_0001 0000_0000 0100_0010, cmd_i = ... 0011_0000. -/
theorem test_decode_overrange :
    decodeTableWord 64 0b0000000000000001000000000100001000000000000000000000000000110000 =
      some (.encodeOverrange 0x10042 0x30) := by decide

/-- A number wider than the request is refused by name. -/
theorem test_decode_rejects_wide :
    decodeReq Params.specDefault 0x1000000000000000000 = .error .addressTooWide ∧
    decodePair narrow 0 0x100 = .error .commandTooWide := ⟨rfl, rfl⟩

/-- The encoder's words for M-6 and O-6. -/
theorem test_encode_words :
    encode Params.specDefault (.encodeExtended 0x142 0x12345601) = 0x0000014212345601 ∧
    encode Params.specDefault (.encodeOverrange 0x12345678 0x9A) = 0x123456780000009A := by decide

/-- R43 with P1's first line: `ENCODE 0x42, '0'`. -/
theorem test_assemble_character :
    assemble Params.specDefault { address := .number 0x42, command := .character '0' } =
      some (.encodeNormal 0x42 0x30) := by decide

/-- A character with no ASCII code, and a literal that does not fit (R43, log 14). -/
theorem test_assemble_refuses :
    assemble Params.specDefault { address := .number 0x42, command := .character 'é' } = none ∧
    assemble narrow { address := .number 0x10000, command := .number 0 } = none := by decide

/-! ## Units -/

/-- R8-12, R8-16, R16-10, R16-15 (the last two differ from in-place byte reversal, C2). -/
theorem test_reversals :
    rev8 0x12#8 = 0x48#8 ∧ rev8 0xFE#8 = 0x7F#8 ∧ rev16 0x1234#16 = 0x2C48#16 ∧ rev16 0xABCD#16 = 0xB3D5#16 := by
  decide

/-- C-6, C-13: only the low byte of the command counts. -/
theorem test_command_field : commandField 0x39 = 0x9C63#16 ∧ commandField 0x12345678 = 0x1EE1#16 := by decide

/-! ## One step of each instruction -/

/-- N-9. -/
theorem test_step_normal :
    outputsOf (step (onPorts Params.specDefault 0x000000AB000000CD)) = some (0xD52AB34C#32, false) := by decide

/-- N-5, which C1 corrects: not the source's literal 0xbd40af50. -/
theorem test_step_normal_corrected_vector :
    outputsOf (step (State.reset.withFetchWord 64 0x0000004200000030)) = some (0x42BD0CF3#32, false) := by decide

/-- E-6. -/
theorem test_step_extended :
    outputsOf (step (onPorts Params.specDefault 0x0000123400000056)) = some (0x2C486A95#32, false) := by decide

/-- E-11, at the other policy: the two policies agree on an extended address. -/
theorem test_step_extended_reject :
    outputsOf (step (onPorts rejecting 0x000002BD000000F5)) = some (0xBD40AF50#32, false) := by decide

/-- O-6 under TRUNCATE. -/
theorem test_step_overrange_truncate :
    outputsOf (step (onPorts Params.specDefault 0x123456780000009A)) = some (0x1E6A59A6#32, false) := by decide

/-- O-6 under REJECT. -/
theorem test_step_overrange_reject :
    outputsOf (step (onPorts rejecting 0x123456780000009A)) = some (0x00000000#32, true) := by decide

/-! ## The host's side -/

/-- The ports hold no request after power-up, so there is no step (R84, 95 L3). -/
theorem test_reset_has_no_request : refusalOf (step State.reset) = some .undrivenInput := by decide

/-- R7, R68: with `AW = 16` no address can set `err_o`, so it is 0 from power-up and after a change of an input under
`REJECT` too; with `AW = 32` it has no value then. -/
theorem test_narrow_error_level_is_constant :
    (State.powerUp narrow).err_o = some false ∧
    ((State.powerUp narrow).driveAddrPort (levelsOf 16 0xFFFF)).err_o = some false ∧
    ((State.powerUp rejecting).driveAddrPort (levelsOf 32 0xFFFF)).err_o = none := by decide

/-- R85: a sample before the inputs were held stable is refused. -/
theorem test_early_sample :
    refusalOf (step { onPorts Params.specDefault 0x4200000030 with pending := [.sample] }) =
      some .unsettledSample := by decide

/-- R84: one undriven wire of a command bit that reaches no output is still an undriven input. -/
theorem test_undriven_wire :
    refusalOf (step { onPorts Params.specDefault 0x4200000030 with
      cmd_i := levelsOf 31 0x30 ++ [.unknown] }) = some .undrivenInput := by decide

/-- R26: the first bits of N-6 on the wire are address bits 0, 1, 2, ... -/
theorem test_wire_bits :
    (wireBits 0x807F807F#32).take 8 = [true, false, false, false, false, false, false, false] := by decide

/-! ## Witnesses: a state and operands that meet the hypotheses of each statement, at the clauses' boundaries -/

/-- `ENCODE 0x42, 0x30` on the ports of the default block. -/
def settled42 : State := onPorts Params.specDefault 0x0000004200000030

/-- `ENCODE 0x10042, 0x30` on the ports of a rejecting block. -/
def rejected42 : State := onPorts rejecting 0x0001004200000030

/-- The state after the block has evaluated `settled42`. -/
def evaluated42 : State := settled42.driveOutputs 0x42BD0CF3#32 false

theorem witness_ReversalMovesEachBitToItsMirror : (0 < 1) ∧ (7 < 8) ∧ (15 < 16) := by decide

theorem witness_ComplementByteInvertsAndCommutes : (0 < 8) ∧ (7 < 8) := by decide

theorem witness_CommandPathGivesReversedByteAndComplement : (7 < 8) ∧ 0x130 % 256 = 0xFFFFFF30 % 256 := by decide

theorem witness_NormalAddressFieldIsReversedByteAndComplement : (0 < 8) ∧ (7 < 8) := by decide

theorem witness_ExtendedAddressFieldReversesSixteenBits : (0 < 16) ∧ (15 < 16) := by decide

theorem witness_PathSelectComparesTheWholeAddress : ∃ p : Params, p.policy = .truncate :=
  ⟨Params.specDefault, rfl⟩

theorem witness_DecodeInvertsEncode :
    (Instr.encodeNormal 0xFF 0xFFFFFFFF).wf Params.specDefault = true ∧
    (Instr.encodeExtended 0x100 0).wf Params.specDefault = true ∧
    (Instr.encodeExtended 0xFFFF 0xFF).wf narrow = true ∧
    (Instr.encodeOverrange 0xFFFFFFFF 0).wf rejecting = true := by decide

theorem witness_EncodeInvertsDecode :
    decodeReq Params.specDefault 0x000000FFFFFFFFFF = .ok (.encodeNormal 0xFF 0xFFFFFFFF) ∧
    decodeReq narrow 0xFFFFFF = .ok (.encodeExtended 0xFFFF 0xFF) ∧
    decodeReq rejecting 0xFFFFFFFF00000000 = .ok (.encodeOverrange 0xFFFFFFFF 0) := ⟨rfl, rfl, rfl⟩

theorem witness_AddressValueSelectsTheClass :
    (0xFF < 2 ^ narrow.aw ∧ 0xFF < 2 ^ narrow.cw) ∧ (0x10000 < 2 ^ rejecting.aw ∧ 0 < 2 ^ rejecting.cw) ∧
    narrow.aw = 16 ∧ decodePair narrow 0xFFFF 0xFF = .ok (.encodeExtended 0xFFFF 0xFF) :=
  ⟨by decide, by decide, rfl, rfl⟩

theorem witness_MatchAndMaskAgreeWithTheDecoder :
    decodeReq Params.specDefault 0x000000FF00000000 = .ok (.encodeNormal 0xFF 0) ∧
    decodeReq Params.specDefault 0x0000010000000000 = .ok (.encodeExtended 0x100 0) ∧
    decodeReq Params.specDefault 0x0001000000000000 = .ok (.encodeOverrange 0x10000 0) := ⟨rfl, rfl, rfl⟩

theorem witness_AssemblerLineIsTheRequestOfItsOperands :
    decodePair Params.specDefault 0x100 1 = .ok (.encodeExtended 0x100 1) ∧ (Char.ofNat 127).toNat < 128 :=
  ⟨rfl, by decide⟩

theorem witness_NormalRequestDrivesNormalPayload :
    (0 ≤ 0xFF) ∧ (0xFF ≤ 0xFF) ∧ (0xFFFFFFFF < 2 ^ Params.specDefault.cw) ∧
    outputsOf (exec (.encodeNormal 0xFF 0) State.reset) = some (0xFF0000FF#32, false) ∧
    0x130 % 256 = 0x30 % 256 := by decide

theorem witness_ExtendedRequestDrivesExtendedPayload :
    (0xFF < 0x100) ∧ (0xFFFF ≤ 0xFFFF) ∧ (0xFFFFFFFF < 2 ^ Params.specDefault.cw) ∧
    outputsOf (exec (.encodeExtended 0x100 0) State.reset) = some (0x008000FF#32, false) ∧
    outputsOf (exec (.encodeExtended 0xFFFF 0) State.reset) = some (0xFFFF00FF#32, false) ∧
    (0xBD42 = (0xFF - 0xBD42 % 256) * 256 + 0xBD42 % 256) ∧
    outputsOf (exec (.encodeExtended 0xBD42 0x30) State.reset) = some (0x42BD0CF3#32, false) := by decide

theorem witness_OverrangeRequestTruncates :
    (0xFFFF < 0x10000) ∧ State.reset.params.policy = .truncate ∧ (0xFF < 0x142 ∧ 0x142 ≤ 0xFFFF ∧ 1 ≤ 1) := by
  decide

theorem witness_OverrangeRequestIsRejected :
    (0xFFFF < 0x10000) ∧ rejected42.params.policy = .reject ∧
    (Instr.encodeOverrange 0x10000 0).inClass = true ∧
    outputsOf (exec (.encodeOverrange 0x10000 0) rejected42) = some (0#32, true) ∧
    (Instr.encodeExtended 0xFFFF 0).inClass = true ∧
    outputsOf (exec (.encodeExtended 0xFFFF 0) rejected42) = some (0xFFFF00FF#32, false) ∧
    (Instr.encodeNormal 0xFF 0).inClass = true ∧
    outputsOf (exec (.encodeNormal 0xFF 0) rejected42) = some (0xFF0000FF#32, false) := by decide

theorem witness_OperationsChangeOnlyTheOutputs :
    ∃ t, exec (.encodeNormal 0x42 0x30) settled42 = .next t := ⟨_, rfl⟩

theorem witness_DecodedMeaningsRefineTheCombinedFunction :
    decodePair settled42.params 0xFF 0 = .ok (.encodeNormal 0xFF 0) ∧
    decodePair settled42.params 0xFFFF 0 = .ok (.encodeExtended 0xFFFF 0) ∧
    decodePair rejected42.params 0x10000 0 = .ok (.encodeOverrange 0x10000 0) := ⟨rfl, rfl, rfl⟩

theorem witness_EveryPayloadBitIsOneInputBit :
    (∃ t v, exec (.encodeNormal 0x42 0x30) settled42 = .next t ∧ t.payload_o = some v) ∧
    (∃ t v, exec (.encodeExtended 0x142 0x30) settled42 = .next t ∧ t.payload_o = some v) ∧ (7 < 8) ∧ (15 < 16) :=
  ⟨⟨_, _, rfl, rfl⟩, ⟨_, _, rfl, rfl⟩, by decide, by decide⟩

theorem witness_FieldsComeMostSignificantFirst :
    (∃ t v, exec (.encodeNormal 0x42 0x30) settled42 = .next t ∧ t.payload_o = some v) ∧
    (∃ t v, exec (.encodeExtended 0x142 0x30) settled42 = .next t ∧ t.payload_o = some v) :=
  ⟨⟨_, _, rfl, rfl⟩, ⟨_, _, rfl, rfl⟩⟩

theorem witness_OnlyTheLowCommandByteMatters : 0x130 % 256 = 0xFFFFFF30 % 256 := by decide

theorem witness_ChecksumBytesXorToAllOnes :
    (∃ o : Observation, o.sound Params.specDefault ∧ o.err = false) ∧ (0xFF ≤ 0xFF) :=
  ⟨⟨encodeNec Params.specDefault 0x42 0x30, ⟨0x42, 0x30, by decide, by decide, rfl⟩, by decide⟩, by decide⟩

theorem witness_OperandsAreRecoverableFromThePayload :
    (encodeNec rejecting 0xFF 0x30).err = false ∧ (0xFF ≤ 0xFF) ∧
    (encodeNec rejecting 0x100 0x30).err = false ∧ (0xFF < 0x100) ∧
    (encodeNec Params.specDefault 0x10000 0x30).err = false := by decide

theorem witness_CollisionsAreExactlyComplementPairs :
    (0xFE < 0x01FE ∧ 0x01FE ≤ 0xFFFF) ∧ (0xFF < 0xFFFF ∧ 0xFFFF ≤ 0xFFFF) := by decide

theorem witness_TopHalvesThatOccur :
    ((0x2C48#16 : Half).extractLsb' 0 8 ≠ 0#8 ∧ ∀ y : Byte, (0x2C48#16 : Half) ≠ y ++ ~~~y) ∧
    (0xFE#8 ≠ 0xFF#8 ∧ 0xFFFF ≤ 0xFFFF) ∧
    (Params.specDefault.policy = .truncate ∧ 16 < Params.specDefault.aw) ∧
    (encodeNec rejecting 0x10000 0).err = true := by
  refine ⟨⟨by decide, fun y h => ?_⟩, by decide, by decide, by decide⟩
  have h8 : (0x2C48#16 : Half).getLsbD 8 = y.getLsbD 0 := by rw [h, BitVec.getLsbD_append]; rfl
  have h0 : (0x2C48#16 : Half).getLsbD 0 = (~~~y).getLsbD 0 := by rw [h, BitVec.getLsbD_append]; rfl
  rw [BitVec.getLsbD_not, ← h8] at h0
  exact absurd h0 (by decide)

theorem witness_StepRunsTheDecodedRequest :
    (settled42.holding = true ∧ settled42.request = some (0x42, 0x30) ∧
      decodePair settled42.params 0x42 0x30 = .ok (.encodeNormal 0x42 0x30)) ∧
    ({ settled42 with pending := [.hold] } : State).holding = true := ⟨⟨rfl, by decide, rfl⟩, rfl⟩

theorem witness_PlacedWordRunsNext :
    0x000001420000FF01 < 2 ^ 64 ∧
    decodeReq State.reset.params 0x000001420000FF01 = .ok (.encodeExtended 0x142 0xFF01) := ⟨by decide, rfl⟩

theorem witness_HeldInputsDriveEncodeOfTheInputs :
    (settled42.portsWide = true ∧ settled42.holding = true ∧ settled42.request = some (0x42, 0x30)) ∧
    (rejected42.portsWide = true ∧ rejected42.holding = true ∧ rejected42.request = some (0x10042, 0x30)) := by
  decide

theorem witness_EveryDrivenRequestCompletes :
    settled42.portsWide = true ∧ settled42.holding = true ∧ Level.unknown ∉ settled42.addr_i ∧
    Level.unknown ∉ settled42.cmd_i := by decide

theorem witness_HoldIsRefusedExactlyOnUndefinedLevels :
    (settled42.portsWide = true ∧ settled42.holding = true ∧ Level.unknown ∉ settled42.addr_i) ∧
    (State.reset.portsWide = true ∧ State.reset.holding = true ∧ Level.unknown ∈ State.reset.addr_i) := by decide

theorem witness_SampleNeedsSettledOutputs :
    (({ settled42 with pending := [.sample] } : State).wf = true ∧ settled42.payload_o = none) ∧
    (({ evaluated42 with pending := [.sample] } : State).wf = true ∧
      evaluated42.payload_o = some 0x42BD0CF3#32) := by decide

theorem witness_InputChangeUnsettlesTheOutputs :
    (∃ s : State, s.pending = .driveAddr (levelsOf 32 0x43) :: [] ∧
      connect s.params.aw (levelsOf 32 0x43) ≠ s.addr_i) ∧
    (∃ s : State, s.pending = .driveAddr (levelsOf 32 0x42) :: [] ∧
      connect s.params.aw (levelsOf 32 0x42) = s.addr_i) ∧
    (∃ s : State, s.pending = .driveCmd (levelsOf 32 0x31) :: [] ∧
      connect s.params.cw (levelsOf 32 0x31) ≠ s.cmd_i) ∧
    (∃ s : State, s.pending = .driveCmd (levelsOf 32 0x30) :: [] ∧
      connect s.params.cw (levelsOf 32 0x30) = s.cmd_i) :=
  ⟨⟨{ evaluated42 with pending := [.driveAddr (levelsOf 32 0x43)] }, rfl, by decide⟩,
   ⟨{ evaluated42 with pending := [.driveAddr (levelsOf 32 0x42)] }, rfl, by decide⟩,
   ⟨{ evaluated42 with pending := [.driveCmd (levelsOf 32 0x31)] }, rfl, by decide⟩,
   ⟨{ evaluated42 with pending := [.driveCmd (levelsOf 32 0x30)] }, rfl, by decide⟩⟩

theorem witness_EvaluatingAgainChangesNothing :
    settled42.pending = [] ∧ step settled42 = .next evaluated42 := ⟨rfl, rfl⟩

theorem witness_MixedPairIsEncodedAsItStands :
    evaluated42.portsWide = true ∧ evaluated42.request = some (0x42, 0x30) ∧
    0xFFFFFFFF < 2 ^ evaluated42.params.aw ∧
    ({ evaluated42 with pending := [.driveAddr (levelsOf 32 0xFFFFFFFF), .hold] } : State).pending =
      .driveAddr (levelsOf evaluated42.params.aw 0xFFFFFFFF) :: .hold :: [] := by decide

theorem witness_ErrorLevelFollowsTheAddress :
    (evaluated42.wf = true ∧ evaluated42.params.policy = .truncate) ∧
    ((rejected42.driveOutputs 0#32 true).wf = true ∧ (rejected42.driveOutputs 0#32 true).payload_o = some 0#32 ∧
      (rejected42.driveOutputs 0#32 true).request = some (0x10042, 0x30)) ∧
    ((onPorts narrow 0xFFFF30).wf = true ∧ narrow.aw = 16) := by decide

theorem witness_OutputsDependOnlyOnTheInputs :
    settled42 ≠ evaluated42 ∧ settled42.params = evaluated42.params ∧ settled42.addr_i = evaluated42.addr_i ∧
    settled42.cmd_i = evaluated42.cmd_i ∧ settled42.holding = true ∧ evaluated42.holding = true := by decide

theorem witness_HighCommandBitsNeverReachAnOutput :
    settled42.portsWide = true ∧ settled42.holding = true ∧ settled42.request = some (0x42, 0x30) ∧
    0xFFFFFF30 < 2 ^ settled42.params.cw ∧ 0x30 % 256 = 0xFFFFFF30 % 256 := by decide

theorem witness_PolicyHasNoEffectAtSixteenAddressBits :
    narrow.aw = 16 ∧ 0xFFFF < 2 ^ narrow.aw ∧ (∃ t, step (onPorts narrow 0xFFFF30) = .next t) ∧
    refusalOf (step (State.powerUp narrow)) = some .undrivenInput ∧ (State.powerUp narrow).params.aw = 16 :=
  ⟨rfl, by decide, ⟨_, rfl⟩, by decide, rfl⟩

theorem witness_ParametersNeverChange : ∃ t, step settled42 = .next t := ⟨_, rfl⟩

theorem witness_WellFormedStateIsKept : settled42.wf = true ∧ step settled42 = .next evaluated42 :=
  ⟨by decide, rfl⟩

theorem witness_ObservationsAreEncodings :
    ∃ s t : State, s.wf = true ∧ (∀ o ∈ s.observed, o.sound s.params) ∧ s.observed ≠ [] ∧ step s = .next t :=
  ⟨{ evaluated42 with observed := [encodeNec Params.specDefault 0x100 1], pending := [.sample] }, _, by decide,
   fun o ho => ⟨0x100, 1, by decide, by decide, List.mem_singleton.mp ho⟩, by decide, rfl⟩

theorem witness_RequestsAreObservedAsTheirEncodings :
    ∃ (reqs : List (Nat × Nat)) (s : State), reqs ≠ [] ∧ s.portsWide = true ∧
      (∀ r ∈ reqs, r.1 < 2 ^ s.params.aw ∧ r.2 < 2 ^ s.params.cw) ∧
      s.pending = reqs.flatMap (fun r => requestActions s.params r.1 r.2) :=
  ⟨[(0xFF, 0x30), (0xFFFFFFFF, 0xFFFFFFFF)],
   { State.reset with
     pending := [(0xFF, 0x30), (0xFFFFFFFF, 0xFFFFFFFF)].flatMap
       (fun r => requestActions State.reset.params r.1 r.2) }, by decide, by decide, by decide, rfl⟩

end Sys2Proof.Tests
end

section
/-! The payload as its four fields (R25): what `wireBytes` reads from the two halves of a payload, and from each of
the two formats. -/

namespace Sys2Proof.Machine

/-! ## The payload that a class puts on `payload_o` -/

theorem payload_eq_of_exec_encodeNormal {s t : State} {a c : Nat} {v : Payload}
    (h : exec (.encodeNormal a c) s = .next t) (hv : t.payload_o = some v) : v = payloadNormal a c := by
  obtain rfl : s.driveOutputs (payloadNormal a c) false = t := Host.Outcome.next.inj h
  exact (Option.some.inj hv).symm

theorem payload_eq_of_exec_encodeExtended {s t : State} {a c : Nat} {v : Payload}
    (h : exec (.encodeExtended a c) s = .next t) (hv : t.payload_o = some v) : v = payloadExtended a c := by
  obtain rfl : s.driveOutputs (payloadExtended a c) false = t := Host.Outcome.next.inj h
  exact (Option.some.inj hv).symm

/-! ## The bytes of a payload -/

/-- The four fields of a payload, field 1 first, join back into it. -/
theorem append_fields (v : Payload) :
    v.extractLsb' 24 8 ++ v.extractLsb' 16 8 ++ v.extractLsb' 8 8 ++ v.extractLsb' 0 8 = v := by
  have join {i j n : Nat} (h : j = i + 8) :
      v.extractLsb' j n ++ v.extractLsb' i 8 = v.extractLsb' i (n + 8) :=
    BitVec.extractLsb'_append_extractLsb'_eq_extractLsb' h
  rw [join (i := 16) rfl, join (i := 8) rfl, join (i := 0) rfl]
  exact BitVec.extractLsb'_eq_self

/-- Fields 1 and 2 are the bytes of the upper half, fields 3 and 4 those of the lower half. -/
theorem wireBytes_cat16 (x y : Half) :
    wireBytes (cat16 x y) =
      [x.extractLsb' 8 8, x.extractLsb' 0 8, y.extractLsb' 8 8, y.extractLsb' 0 8] := by
  have upper {i : Nat} (hi : 16 ≤ i) : (cat16 x y).extractLsb' i 8 = x.extractLsb' (i - 16) 8 :=
    BitVec.extractLsb'_append_eq_of_le hi
  have lower {i : Nat} (hi : i + 8 ≤ 16) : (cat16 x y).extractLsb' i 8 = y.extractLsb' i 8 :=
    BitVec.extractLsb'_append_eq_of_add_le hi
  rw [wireBytes, upper (by decide), upper (by decide), lower (by decide), lower (by decide)]

theorem wireBytes_payloadNormal (a c : Nat) :
    wireBytes (payloadNormal a c) = [addrRev8 a, comp8 (addrRev8 a), cmdRev c, comp8 (cmdRev c)] := by
  rw [payloadNormal, wireBytes_cat16, addressFieldN, commandField, cat8_high, cat8_low, cat8_high, cat8_low]

theorem wireBytes_payloadExtended (a c : Nat) :
    wireBytes (payloadExtended a c) =
      [(addrRev16 a).extractLsb' 8 8, (addrRev16 a).extractLsb' 0 8, cmdRev c, comp8 (cmdRev c)] := by
  rw [payloadExtended, wireBytes_cat16, commandField, cat8_high, cat8_low]

/-- Settles O23: the four bytes of any payload join back into it, and each framing is two halves, whose bytes are its
fields (R25). -/
theorem fieldsComeMostSignificantFirst : Obligations.FieldsComeMostSignificantFirst := by
  refine ⟨fun v => ⟨_, _, _, _, rfl, (append_fields v).symm⟩, fun s t a c v h hv => ?_, fun s t a c v h hv => ?_⟩
  · rw [payload_eq_of_exec_encodeNormal h hv, wireBytes_payloadNormal]
  · rw [payload_eq_of_exec_encodeExtended h hv, wireBytes_payloadExtended]

end Sys2Proof.Machine
end

section
/-! Bit reversal (R44), and the command path built on it: the reversed low byte of the command with its complement
(R48, R49). -/

namespace Sys2Proof.Machine

/-! ## Reversal -/

/-- Bit `i` of the result is the mirror bit `w - 1 - i` of the input (R44). -/
theorem rev_bit_of_lt {w : Nat} (v : BitVec w) {i : Nat} (hi : i < w) :
    (rev v).getLsbD i = v.getLsbD (w - 1 - i) := by
  rw [rev_bit, decide_eq_true hi, Bool.true_and]

@[simp] theorem rev_zero (w : Nat) : rev (0#w) = 0#w := by
  apply BitVec.eq_of_getLsbD_eq
  intro i hi
  rw [rev_bit_of_lt _ hi, BitVec.getLsbD_zero, BitVec.getLsbD_zero]

@[simp] theorem rev_allOnes (w : Nat) : rev (BitVec.allOnes w) = BitVec.allOnes w := by
  apply BitVec.eq_of_getLsbD_eq
  intro i hi
  have mirror_lt : w - 1 - i < w := by omega
  simp only [rev_bit_of_lt _ hi, BitVec.getLsbD_allOnes, mirror_lt, hi]

/-- The mirror of the mirror of a bit's index is that index. -/
@[simp] theorem rev_rev {w : Nat} (v : BitVec w) : rev (rev v) = v := by
  apply BitVec.eq_of_getLsbD_eq
  intro i hi
  have mirror_lt : w - 1 - i < w := by omega
  have mirror_mirror : w - 1 - (w - 1 - i) = i := by omega
  rw [rev_bit_of_lt _ hi, rev_bit_of_lt _ mirror_lt, mirror_mirror]

/-- Settles O1: the bit map of R44, its two fixed words and its involution; the bytes that R44 names are evaluated. -/
theorem reversalMovesEachBitToItsMirror : Obligations.ReversalMovesEachBitToItsMirror :=
  ⟨fun _ v _ => rev_bit_of_lt v, fun w => ⟨rev_zero w, rev_allOnes w⟩, fun _ v => rev_rev v, by decide⟩

/-! ## The command path -/

theorem cmd8_congr {c c' : Nat} (h : c % 256 = c' % 256) : cmd8 c = cmd8 c' := BitVec.eq_of_toNat_eq h

theorem cmdRev_congr {c c' : Nat} (h : c % 256 = c' % 256) : cmdRev c = cmdRev c' := by
  rw [cmdRev, cmdRev, cmd8_congr h]

/-- A pair of bytes as the expression `(hi << 8) | lo` of R49 and R52. -/
theorem cat8_eq_shiftLeft_or (hi lo : Byte) : cat8 hi lo = hi.setWidth 16 <<< 8 ||| lo.setWidth 16 := by
  apply BitVec.eq_of_getLsbD_eq
  intro i h16
  rw [cat8_bit]
  split
  case isTrue low => simp [h16, low]
  case isFalse high => simp [h16, high, BitVec.getLsbD_of_ge lo i (Nat.le_of_not_lt high)]

/-- A byte beside its complement fills its 16 bits neither with zeros nor with ones: bits 0 and 8 differ. -/
theorem cat8_comp8_ne_constant (b : Byte) : cat8 b (comp8 b) ≠ 0x0000#16 ∧ cat8 b (comp8 b) ≠ 0xFFFF#16 := by
  have differ : (cat8 b (comp8 b)).getLsbD 0 ≠ (cat8 b (comp8 b)).getLsbD 8 := by simp
  exact ⟨fun h => differ (by rw [h]; decide), fun h => differ (by rw [h]; decide)⟩

/-- Settles O4: bit by bit through the reversal and the slice, then field by field through the concatenations of R9;
the listed values of both are evaluated. -/
theorem commandPathGivesReversedByteAndComplement : Obligations.CommandPathGivesReversedByteAndComplement := by
  refine ⟨fun c i hi => ⟨rev_bit_of_lt (cmd8 c) hi, ?_⟩, fun _ _ => cmdRev_congr,
    fun c => ⟨cat8_high _ _, cat8_low _ _, cat8_eq_shiftLeft_or _ _⟩, fun _ _ => ⟨cat16_low _ _, cat16_low _ _⟩,
    fun c => cat8_comp8_ne_constant (cmdRev c), by decide, by decide⟩
  rw [cmd8_bit, decide_eq_true hi, Bool.true_and]

end Sys2Proof.Machine
end

section
/-! The address path (R51, R52, R53): the two address fields bit by bit, and the path select that chooses between
them. -/

namespace Sys2Proof.Machine

/-! ## The address fields -/

theorem addrRev8_bit_of_lt (a : Nat) {i : Nat} (hi : i < 8) : (addrRev8 a).getLsbD i = a.testBit (7 - i) := by
  have mirror_lt : 7 - i < 8 := by omega
  simp only [addrRev8, rev8_bit, a8_bit, hi, mirror_lt, decide_true, Bool.true_and]

theorem addrRev16_bit_of_lt (a : Nat) {i : Nat} (hi : i < 16) :
    (addrRev16 a).getLsbD i = a.testBit (15 - i) := by
  have mirror_lt : 15 - i < 16 := by omega
  simp only [addrRev16, rev16_bit, a16_bit, hi, mirror_lt, decide_true, Bool.true_and]

/-- Settles O5: the bit map of R52, then field by field through the concatenations of R9; the listed values are
evaluated. -/
theorem normalAddressFieldIsReversedByteAndComplement :
    Obligations.NormalAddressFieldIsReversedByteAndComplement :=
  ⟨fun a _ => addrRev8_bit_of_lt a, fun _ => ⟨cat8_high _ _, cat8_low _ _⟩, fun _ _ => cat16_high _ _, by decide⟩

/-- Settles O6: the bit map of R53, which reaches address bits 15 to 0 only, and the upper half of the extended
format; the listed values are evaluated. -/
theorem extendedAddressFieldReversesSixteenBits : Obligations.ExtendedAddressFieldReversesSixteenBits :=
  ⟨fun a _ => addrRev16_bit_of_lt a, fun _ _ => cat16_high _ _, by decide⟩

/-! ## The path select -/

theorem ext_iff (a : Nat) : ext a = true ↔ 0xFF < a := decide_eq_true_iff

/-- The comparison with 0xFF is the OR of the address bits from 8 up (R51). -/
theorem ext_iff_exists_testBit (a : Nat) : ext a = true ↔ ∃ i, 8 ≤ i ∧ a.testBit i = true := by
  rw [ext_iff]
  constructor
  · exact fun h => Nat.exists_ge_and_testBit_of_ge_two_pow (n := 8) h
  · rintro ⟨i, hi, bit⟩
    calc 2 ^ 8 ≤ 2 ^ i := Nat.pow_le_pow_right (by decide) hi
      _ ≤ a := Nat.ge_two_pow_of_testBit bit

/-- Under `TRUNCATE` nothing is rejected, and the path select is the multiplexer's only input (R51, R57). -/
theorem encodeNec_of_truncate {p : Params} (h : p.policy = .truncate) (a c : Nat) :
    encodeNec p a c =
      { payload := if ext a then payloadExtended a c else payloadNormal a c, err := false } := by
  have no_error : addressOutOfRange p a = false := by simp [addressOutOfRange, h]
  rw [encodeNec, no_error, if_neg Bool.false_ne_true]
  split <;> rfl

/-- Settles O7: the select is the whole comparison, as a test of the high bits, and under `TRUNCATE` it alone picks
the framing; 0x10042 has bit 16 set and so takes the extended one. -/
theorem pathSelectComparesTheWholeAddress : Obligations.PathSelectComparesTheWholeAddress := by
  refine ⟨ext_iff, ext_iff_exists_testBit, fun p a c h => congrArg _ (encodeNec_of_truncate h a c), fun p c h => ?_⟩
  have is_ext : ext 0x10042 = true := by decide
  have field : addrRev16 0x10042 = 0x4200#16 := by decide
  rw [encodeNec_of_truncate h, is_ext, if_pos rfl, payloadExtended, cat16_high, field]

end Sys2Proof.Machine
end

section
/-! The requests of the classes NORMAL and EXTENDED (R54, R55): how they decode, what they drive, and when the top two
bytes of a payload are complements. -/

namespace Sys2Proof

/-! ## The class of a request -/

/-- `AW` is at least 16 (R7), so an address up to 0xFFFF fits every block. -/
theorem lt_two_pow_aw (p : Params) {a : Nat} (h : a ≤ 0xFFFF) : a < 2 ^ p.aw :=
  calc a < 2 ^ 16 := Nat.lt_succ_of_le h
    _ ≤ 2 ^ p.aw := Nat.pow_le_pow_right (by decide) p.aw_legal

/-- The class of a request that fits its ports, from the address's value (R39). -/
theorem decodePair_of_fits {p : Params} {a c : Nat} (ha : a < 2 ^ p.aw) (hc : c < 2 ^ p.cw) :
    decodePair p a c = .ok (if a ≤ 0xFF then .encodeNormal a c
      else if a ≤ 0xFFFF then .encodeExtended a c else .encodeOverrange a c) := by
  obtain ⟨i, hd⟩ := decodePair_ok ha hc
  rw [hd]
  obtain ⟨-, -, ⟨h, rfl⟩ | ⟨above, h, rfl⟩ | ⟨above, rfl⟩⟩ := decodePair_cases hd
  · rw [if_pos h]
  · rw [if_neg (Nat.not_le_of_lt above), if_pos h]
  · rw [if_neg (by omega), if_neg (Nat.not_le_of_lt above)]

theorem decodePair_normal {p : Params} {a c : Nat} (h : a ≤ 0xFF) (hc : c < 2 ^ p.cw) :
    decodePair p a c = .ok (.encodeNormal a c) := by
  rw [decodePair_of_fits (lt_two_pow_aw p (by omega)) hc, if_pos h]

theorem decodePair_extended {p : Params} {a c : Nat} (above : 0xFF < a) (h : a ≤ 0xFFFF) (hc : c < 2 ^ p.cw) :
    decodePair p a c = .ok (.encodeExtended a c) := by
  rw [decodePair_of_fits (lt_two_pow_aw p h) hc, if_neg (Nat.not_le_of_lt above), if_pos h]

namespace Machine

/-! ## The payload that a class drives -/

/-- `{h, {x, y}}` is `{h, x, y}` (R9). -/
theorem cat16_cat8 (h : Half) (x y : Byte) : cat16 h (cat8 x y) = h ++ x ++ y :=
  (BitVec.append_assoc (x₁ := h) (x₂ := x) (x₃ := y)).symm

theorem exec_encodeNormal (a c : Nat) (s : State) :
    exec (.encodeNormal a c) s = .next (s.driveOutputs (payloadNormal a c) false) := rfl

theorem exec_encodeExtended (a c : Nat) (s : State) :
    exec (.encodeExtended a c) s = .next (s.driveOutputs (payloadExtended a c) false) := rfl

/-- NORMAL drives its payload, in whatever form the value is written, and leaves all else (R54). -/
theorem exec_encodeNormal_of_payload {a c : Nat} {v : Payload} (h : payloadNormal a c = v) (s : State) :
    exec (.encodeNormal a c) s = .next { s with payload_o := some v, err_o := some false } := by
  rw [exec_encodeNormal, h]; rfl

/-- EXTENDED drives its payload, in whatever form the value is written, and leaves all else (R55). -/
theorem exec_encodeExtended_of_payload {a c : Nat} {v : Payload} (h : payloadExtended a c = v) (s : State) :
    exec (.encodeExtended a c) s = .next { s with payload_o := some v, err_o := some false } := by
  rw [exec_encodeExtended, h]; rfl

theorem commandField_congr {c c' : Nat} (h : c % 256 = c' % 256) : commandField c = commandField c' := by
  rw [commandField, commandField, cmdRev_congr h]

theorem payloadNormal_congr (a : Nat) {c c' : Nat} (h : c % 256 = c' % 256) :
    payloadNormal a c = payloadNormal a c' := by
  rw [payloadNormal, payloadNormal, commandField_congr h]

/-! ## Checksum bytes -/

theorem comp8_eq_not (b : Byte) : comp8 b = ~~~b := by rw [comp8, BitVec.xor_comm]; exact BitVec.allOnes_xor

/-- Two bytes XOR to all ones exactly when the second is the first one's checksum (R46). -/
theorem xor_eq_allOnes_iff (x y : Byte) : x ^^^ y = 0xFF#8 ↔ y = comp8 x := by
  have pair : x ^^^ comp8 x = 0xFF#8 := by rw [comp8, ← BitVec.xor_assoc, BitVec.xor_self, BitVec.zero_xor]
  rw [← pair, BitVec.xor_right_inj]

/-- The top two bytes of a payload whose upper half is `{x, y}`. -/
theorem topBytes_xor_iff (x y : Byte) (h : Half) :
    (cat16 (cat8 x y) h).extractLsb' 24 8 ^^^ (cat16 (cat8 x y) h).extractLsb' 16 8 = 0xFF#8 ↔ y = comp8 x := by
  have byte1 : (cat16 (cat8 x y) h).extractLsb' 24 8 = x :=
    (BitVec.extractLsb'_append_eq_of_le (by decide)).trans (cat8_high x y)
  have byte2 : (cat16 (cat8 x y) h).extractLsb' 16 8 = y :=
    (BitVec.extractLsb'_append_eq_of_le (by decide)).trans (cat8_low x y)
  rw [byte1, byte2, xor_eq_allOnes_iff]

/-- Settles O16: the payload is the concatenation of R54, its class comes from the address's value, its address pair
is a byte and its checksum, and it reads the low command byte only; the listed payloads are evaluated. -/
theorem normalRequestDrivesNormalPayload : Obligations.NormalRequestDrivesNormalPayload := by
  refine ⟨fun s a c _ => exec_encodeNormal_of_payload (cat16_cat8 _ _ _) s, fun _ _ _ => decodePair_normal,
    fun s t a c v h hv => ?checksum, fun s a c c' h => ?lowByte,
    fun s => ⟨exec_encodeNormal_of_payload (by decide) s, exec_encodeNormal_of_payload (by decide) s,
      exec_encodeNormal_of_payload (by decide) s⟩⟩
  case checksum =>
    rw [payload_eq_of_exec_encodeNormal h hv]
    exact (topBytes_xor_iff _ _ _).mpr rfl
  case lowByte => rw [exec_encodeNormal, exec_encodeNormal, payloadNormal_congr a h]

/-! ## The extended address field as two bytes -/

theorem comp8_rev8 (b : Byte) : comp8 (rev8 b) = rev8 (comp8 b) := by
  apply BitVec.eq_of_getLsbD_eq
  intro i hi
  have mirror_lt : 7 - i < 8 := by omega
  simp only [comp8_bit, rev8_bit, hi, mirror_lt, decide_true, Bool.true_and]

theorem rev8_injective : Function.Injective rev8 := Function.LeftInverse.injective (g := rev8) rev_rev

/-- The reversal across 16 bits puts the low address byte first and swaps the two (R47, R53). -/
theorem addrRev16_eq_cat8 (a : Nat) : addrRev16 a = cat8 (addrRev8 a) (addrRev8 (a >>> 8)) := by
  apply BitVec.eq_of_getLsbD_eq
  intro i hi
  rw [addrRev16_bit_of_lt a hi, cat8_bit]
  split
  case isTrue low => rw [addrRev8_bit_of_lt _ low, Nat.testBit_shiftRight]; congr 1; omega
  case isFalse high => rw [addrRev8_bit_of_lt _ (by omega)]; congr 1; omega

/-- The two bytes of the extended field are a byte and its checksum exactly for the addresses `{~a8, a8}` (R55). -/
theorem addrRev8_shiftRight_eq_comp8_iff {a : Nat} (h : a ≤ 0xFFFF) :
    addrRev8 (a >>> 8) = comp8 (addrRev8 a) ↔ a = (0xFF - a % 256) * 256 + a % 256 := by
  have high : (a8 (a >>> 8)).toNat = a / 256 := by
    rw [a8, BitVec.toNat_ofNat, Nat.shiftRight_eq_div_pow]; omega
  have low : (comp8 (a8 a)).toNat = 0xFF - a % 256 := by
    rw [comp8_eq_not, BitVec.toNat_not, a8, BitVec.toNat_ofNat]
  rw [addrRev8, addrRev8, comp8_rev8, rev8_injective.eq_iff, ← BitVec.toNat_inj, high, low]
  omega

theorem topBytes_payloadExtended_xor_iff (a c : Nat) :
    (payloadExtended a c).extractLsb' 24 8 ^^^ (payloadExtended a c).extractLsb' 16 8 = 0xFF#8 ↔
      addrRev8 (a >>> 8) = comp8 (addrRev8 a) := by
  rw [payloadExtended, addrRev16_eq_cat8, topBytes_xor_iff]

/-- The normal address field reads the low address byte only (R52). -/
theorem addrRev8_mod (a : Nat) : addrRev8 (a % 256) = addrRev8 a :=
  congrArg rev8 (BitVec.eq_of_toNat_eq (Nat.mod_mod a 256))

/-- An extended address field that is a byte and its checksum is the normal field of its low byte (R55). -/
theorem payloadExtended_eq_payloadNormal {a : Nat} (h : addrRev8 (a >>> 8) = comp8 (addrRev8 a)) (c : Nat) :
    payloadExtended a c = payloadNormal (a % 256) c := by
  rw [payloadExtended, addrRev16_eq_cat8, h, payloadNormal, addressFieldN, addrRev8_mod]

theorem topHalf_of_exec_encodeExtended {s t : State} {a c : Nat} (h : exec (.encodeExtended a c) s = .next t) :
    t.payload_o.map (fun v => v.extractLsb' 16 16) = some (addrRev16 a) := by
  obtain rfl : s.driveOutputs (payloadExtended a c) false = t := Host.Outcome.next.inj h
  exact congrArg some (cat16_high _ _)

/-- Settles O17: the payload is the concatenation of R55, its class comes from the address's value, and its top two
bytes, the reversed low and high address bytes, are complements exactly when the address bytes are; the listed values
are evaluated. -/
theorem extendedRequestDrivesExtendedPayload : Obligations.ExtendedRequestDrivesExtendedPayload := by
  refine ⟨fun s a c _ _ => exec_encodeExtended_of_payload (cat16_cat8 _ _ _) s, fun _ _ _ => decodePair_extended,
    fun s t a c v _ ha h hv => ?complementPair,
    fun s t c h => (topHalf_of_exec_encodeExtended h).trans (by decide),
    fun s t c h => (topHalf_of_exec_encodeExtended h).trans (by decide),
    fun s => exec_encodeExtended_of_payload (by decide) s⟩
  case complementPair =>
    rw [payload_eq_of_exec_encodeExtended h hv, topBytes_payloadExtended_xor_iff]
    refine ⟨addrRev8_shiftRight_eq_comp8_iff ha, fun pair => ?_⟩
    rw [exec_encodeNormal, ← payloadExtended_eq_payloadNormal pair, ← exec_encodeExtended, h]

end Machine

end Sys2Proof
end

section
/-! Requests and their words (R33, R39, R43): the decoder in one equivalence, from which both round trips, the class
of an address, the match and mask table and the assembler's lines follow. -/

namespace Sys2Proof

/-! ## The request word -/

/-- A command that fits its port leaves the address in the bits above it (R33). -/
theorem reqAddr_reqWord {p : Params} (a : Nat) {c : Nat} (hc : c < 2 ^ p.cw) : reqAddr p (reqWord p a c) = a := by
  rw [reqAddr, reqWord, Nat.mul_comm, Nat.mul_add_div (Nat.two_pow_pos _), Nat.div_eq_of_lt hc, Nat.add_zero]

theorem reqCmd_reqWord {p : Params} (a : Nat) {c : Nat} (hc : c < 2 ^ p.cw) : reqCmd p (reqWord p a c) = c := by
  rw [reqCmd, reqWord, Nat.mul_add_mod_of_lt hc]

theorem reqWord_reqAddr_reqCmd (p : Params) (w : Nat) : reqWord p (reqAddr p w) (reqCmd p w) = w :=
  Nat.div_add_mod' w (2 ^ p.cw)

/-! ## The decoder -/

/-- A pair decodes to exactly the well-formed instruction that has its two numbers as operands (R33, R39). -/
theorem decodePair_eq_ok_iff {p : Params} {a c : Nat} {i : Instr} :
    decodePair p a c = .ok i ↔ i.addr = a ∧ i.cmd = c ∧ i.wf p = true := by
  constructor
  · intro h
    obtain ⟨ha, hc, ⟨range, rfl⟩ | ⟨above, range, rfl⟩ | ⟨above, rfl⟩⟩ := decodePair_cases h
    · exact ⟨rfl, rfl, (Instr.wf_encodeNormal a c p).mpr ⟨⟨ha, hc⟩, range⟩⟩
    · exact ⟨rfl, rfl, (Instr.wf_encodeExtended a c p).mpr ⟨⟨ha, hc⟩, above, range⟩⟩
    · exact ⟨rfl, rfl, (Instr.wf_encodeOverrange a c p).mpr ⟨⟨ha, hc⟩, above⟩⟩
  · rintro ⟨rfl, rfl, wf⟩
    cases i with
    | encodeNormal a c =>
      obtain ⟨⟨-, hc⟩, range⟩ := (Instr.wf_encodeNormal a c p).mp wf
      exact decodePair_normal range hc
    | encodeExtended a c =>
      obtain ⟨⟨-, hc⟩, above, range⟩ := (Instr.wf_encodeExtended a c p).mp wf
      exact decodePair_extended above range hc
    | encodeOverrange a c =>
      obtain ⟨⟨ha, hc⟩, above⟩ := (Instr.wf_encodeOverrange a c p).mp wf
      rw [Instr.addr_encodeOverrange, Instr.cmd_encodeOverrange, decodePair_of_fits ha hc, if_neg (by omega),
        if_neg (by omega)]

/-- Settles O11: the two fields of the word are the operands, and the pair of them decodes to the instruction. -/
theorem decodeInvertsEncode : Obligations.DecodeInvertsEncode := by
  intro p i wf
  obtain ⟨-, hc⟩ := Laws.EncodeFits.fits_of_wf wf
  rw [decodeReq, encode, reqAddr_reqWord _ hc, reqCmd_reqWord _ hc]
  exact decodePair_eq_ok_iff.mpr ⟨rfl, rfl, wf⟩

/-- Settles O12: the decoded operands are the two fields of the word, which make it up. -/
theorem encodeInvertsDecode : Obligations.EncodeInvertsDecode := by
  intro p w i h
  obtain ⟨ha, hc, wf⟩ := decodePair_eq_ok_iff.mp h
  exact ⟨by rw [encode, ha, hc, reqWord_reqAddr_reqCmd], wf⟩

/-- Settles O13: a pair that fits is decoded by its address's value, and 16 address bits hold no OVERRANGE address. -/
theorem addressValueSelectsTheClass : Obligations.AddressValueSelectsTheClass := by
  refine ⟨fun _ _ _ => decodePair_of_fits, ?_⟩
  rintro p a c i narrow h rfl
  obtain ⟨-, -, wf⟩ := decodePair_eq_ok_iff.mp h
  obtain ⟨⟨ha, -⟩, above⟩ := (Instr.wf_encodeOverrange a c p).mp wf
  rw [narrow] at ha
  omega

/-- Settles O10: each word is evaluated. -/
theorem writtenOutRequestsDecode : Obligations.WrittenOutRequestsDecode := ⟨rfl, rfl, rfl, rfl, rfl, rfl⟩

/-! ## The match and mask table -/

/-- A number of `n` bits is clear under the mask of the bits from `k` up exactly when it has `k` bits. -/
theorem and_highMask_eq_zero_iff {n k w : Nat} (hk : k ≤ n) (hw : w < 2 ^ n) :
    w &&& (2 ^ n - 2 ^ k) = 0 ↔ w < 2 ^ k := by
  have split_pow : 2 ^ n = 2 ^ (n - k) * 2 ^ k := by rw [← Nat.pow_add, Nat.sub_add_cancel hk]
  have mask : 2 ^ n - 2 ^ k = (2 ^ (n - k) - 1) <<< k := by rw [Nat.shiftLeft_eq, Nat.sub_mul, one_mul, split_pow]
  rw [mask]
  constructor
  · intro clear
    have high_lt : w / 2 ^ k < 2 ^ (n - k) := Nat.div_lt_of_lt_mul (by rwa [mul_comm, ← split_pow])
    have high : w / 2 ^ k = 0 := by
      rw [← Nat.and_two_pow_sub_one_of_lt_two_pow high_lt, ← Nat.shiftRight_eq_div_pow,
        ← Nat.shiftLeft_shiftRight (2 ^ (n - k) - 1) k, ← Nat.shiftRight_and_distrib, clear, Nat.zero_shiftRight]
    exact (Nat.div_eq_zero_iff_lt (Nat.two_pow_pos k)).mp high
  · intro small
    apply Nat.eq_of_testBit_eq
    intro i
    rw [Nat.testBit_and, Nat.testBit_shiftLeft, Nat.zero_testBit]
    by_cases hi : k ≤ i
    · rw [Nat.testBit_lt_two_pow (small.trans_le (Nat.pow_le_pow_right (by decide) hi)), Bool.false_and]
    · rw [decide_eq_false hi, Bool.false_and, Bool.and_false]

/-- The table's row of a word that fits, by the value of its address field: masking the bits above is comparing. -/
theorem tableMnemonic_of_lt {p : Params} {w : Nat} (hw : w < 2 ^ (p.aw + p.cw)) :
    tableMnemonic p w = some (if reqAddr p w ≤ 0xFF then "ENCODE.NORMAL"
      else if reqAddr p w ≤ 0xFFFF then "ENCODE.EXTENDED" else "ENCODE.OVERRANGE") := by
  have row {k : Nat} (hk : k ≤ 16) :
      (w &&& (2 ^ (p.aw + p.cw) - 2 ^ (p.cw + k)) == 0) = decide (reqAddr p w < 2 ^ k) := by
    have width := p.aw_legal
    rw [beq_eq_decide, decide_eq_decide, and_highMask_eq_zero_iff (by omega) hw, reqAddr,
      Nat.div_lt_iff_lt_mul (Nat.two_pow_pos _), ← Nat.pow_add, Nat.add_comm k]
  rw [tableMnemonic, opcodeTable, List.find?_cons, row (by decide), List.find?_cons, row (by decide)]
  by_cases normal : reqAddr p w < 2 ^ 8
  · rw [decide_eq_true normal, if_pos (Nat.le_of_lt_succ normal)]; rfl
  by_cases extended : reqAddr p w < 2 ^ 16
  · rw [decide_eq_false normal, decide_eq_true extended, if_neg (by omega), if_pos (Nat.le_of_lt_succ extended)]; rfl
  · rw [decide_eq_false normal, decide_eq_false extended, if_neg (by omega), if_neg (by omega),
      List.find?_cons_of_pos (by rw [Nat.and_zero]; rfl)]
    rfl

/-- Settles O14: a decoded word fits, and both the table's rows and the classes compare its address field. -/
theorem matchAndMaskAgreeWithTheDecoder : Obligations.MatchAndMaskAgreeWithTheDecoder := by
  refine ⟨fun p w i h => ?_, by decide⟩
  obtain ⟨ha, hc, range⟩ := decodePair_cases h
  have hw : w < 2 ^ (p.aw + p.cw) := by
    rw [← reqWord_reqAddr_reqCmd p w]; exact Laws.EncodeFits.reqWord_lt ha hc
  rw [tableMnemonic_of_lt hw]
  obtain ⟨normal, rfl⟩ | ⟨above, extended, rfl⟩ | ⟨above, rfl⟩ := range
  · rw [if_pos normal]; rfl
  · rw [if_neg (Nat.not_le_of_lt above), if_pos extended]; rfl
  · rw [if_neg (by omega), if_neg (Nat.not_le_of_lt above)]; rfl

/-! ## Assembler lines -/

theorem assemble_eq_some_iff {p : Params} {l : AsmLine} {i : Instr} :
    assemble p l = some i ↔
      ∃ a c, l.address.value = some a ∧ l.command.value = some c ∧ decodePair p a c = .ok i := by
  unfold assemble
  cases l.address.value with
  | none => simp
  | some a =>
    cases l.command.value with
    | none => simp
    | some c => cases h : decodePair p a c <;> simp [h]

/-- The line reads an operand through its value only. -/
theorem assemble_congr_command {p : Params} {a x y : AsmOperand} (h : x.value = y.value) :
    assemble p { address := a, command := x } = assemble p { address := a, command := y } := by
  unfold assemble; rw [h]

/-- Settles O15: two numbers are their own values, and a character of ASCII has its code as its value. -/
theorem assemblerLineIsTheRequestOfItsOperands : Obligations.AssemblerLineIsTheRequestOfItsOperands := by
  refine ⟨fun p a c i => ?_, fun p a ch ascii => assemble_congr_command (if_pos ascii), by decide⟩
  rw [assemble_eq_some_iff]
  constructor
  · rintro ⟨_, _, ⟨⟩, ⟨⟩, h⟩
    exact h
  · exact fun h => ⟨a, c, rfl, rfl, h⟩

end Sys2Proof
end

section
/-! The laws of the datapath's units and formats, bit by bit (R26, R42, R46, R47, R58). -/

namespace Sys2Proof.Machine

/-! ## The two units -/

theorem comp8_comp8 (b : Byte) : comp8 (comp8 b) = b := by rw [comp8_eq_not, comp8_eq_not, BitVec.not_not]

/-- Settles O2: the complement byte is bitwise negation, and each of its laws is one of negation or of the reversal. -/
theorem complementByteInvertsAndCommutes : Obligations.ComplementByteInvertsAndCommutes := by
  refine ⟨fun b => ⟨rfl, comp8_eq_not b⟩, fun b i hi => ?_,
    fun b => ⟨comp8_comp8 b, (xor_eq_allOnes_iff b _).mpr rfl, comp8_rev8 b⟩, by decide⟩
  rw [comp8_bit, decide_eq_true hi, Bool.true_and]

@[simp] theorem rev8_rev8 (b : Byte) : rev8 (rev8 b) = b := rev_rev b

@[simp] theorem rev16_rev16 (h : Half) : rev16 (rev16 h) = h := rev_rev h

/-- The reversal across 16 bits swaps the two bytes and reverses each (R47). -/
theorem rev16_eq_cat8 (h : Half) : rev16 h = cat8 (rev8 (h.extractLsb' 0 8)) (rev8 (h.extractLsb' 8 8)) := by
  apply BitVec.eq_of_getLsbD_eq
  intro i hi
  rw [rev16_bit, decide_eq_true hi, Bool.true_and, cat8_bit]
  split
  case isTrue low =>
    have mirror : 15 - i = 8 + (7 - i) := by omega
    have mirror_lt : 7 - i < 8 := by omega
    simp only [rev8_bit, BitVec.getLsbD_extractLsb', low, mirror_lt, mirror, decide_true, Bool.true_and]
  case isFalse high =>
    have mirror : 15 - i = 0 + (7 - (i - 8)) := by omega
    have byte_lt : i - 8 < 8 := by omega
    have mirror_lt : 7 - (i - 8) < 8 := by omega
    simp only [rev8_bit, BitVec.getLsbD_extractLsb', byte_lt, mirror_lt, mirror, decide_true, Bool.true_and]

/-- Settles O3: the law for every half; the two contrasting values of C2 are evaluated. -/
theorem wideReversalSwapsReversedBytes : Obligations.WideReversalSwapsReversedBytes :=
  ⟨rev16_eq_cat8, by decide, by decide⟩

/-! ## Composition by shifts and ORs -/

/-- A pair of halves as the expression `(hi << 16) | lo` of R58. -/
theorem cat16_eq_shiftLeft_or (hi lo : Half) : cat16 hi lo = hi.setWidth 32 <<< 16 ||| lo.setWidth 32 := by
  apply BitVec.eq_of_getLsbD_eq
  intro i h32
  rw [cat16_bit]
  split
  case isTrue low => simp [h32, low]
  case isFalse high => simp [h32, high, BitVec.getLsbD_of_ge lo i (Nat.le_of_not_lt high)]

/-- A pair of bytes in the upper half of a payload, as two shifted bytes. -/
theorem cat8_setWidth_shiftLeft (hi lo : Byte) :
    (cat8 hi lo).setWidth 32 <<< 16 = hi.setWidth 32 <<< 24 ||| lo.setWidth 32 <<< 16 := by
  have widen : (hi.setWidth 16 <<< 8).setWidth 32 = hi.setWidth 32 <<< 8 := by
    apply BitVec.eq_of_toNat_eq
    have bound := hi.isLt
    simp only [BitVec.toNat_setWidth, BitVec.toNat_shiftLeft, Nat.shiftLeft_eq]
    omega
  rw [cat8_eq_shiftLeft_or, BitVec.setWidth_or, BitVec.shiftLeft_or_distrib, widen, ← BitVec.shiftLeft_add,
    BitVec.setWidth_setWidth (by decide)]

/-- Settles O9: a concatenation of two fields is a shift and an OR, for the halves of a payload and for the bytes of
the address field. -/
theorem shiftAndOrComposeTheFields : Obligations.ShiftAndOrComposeTheFields := by
  intro a c
  constructor
  · rw [payloadNormal, cat16_eq_shiftLeft_or, addressFieldN, cat8_setWidth_shiftLeft, comp8]
  · rw [payloadExtended, cat16_eq_shiftLeft_or]

/-! ## The bit map of the formats -/

/-- The command and its complement, each least significant bit first from the top (R42, R49). -/
theorem commandField_bits (c : Nat) {i : Nat} (hi : i < 8) :
    (commandField c).getLsbD (15 - i) = c.testBit i ∧ (commandField c).getLsbD (7 - i) = !c.testBit i := by
  have mirror_lt : 7 - i < 8 := by omega
  have high : ¬ 15 - i < 8 := by omega
  have byte_bit : (cmdRev c).getLsbD (7 - i) = c.testBit i := by
    rw [cmdRev, rev8_bit, cmd8_bit, decide_eq_true mirror_lt, Bool.true_and, Nat.sub_sub_self (Nat.le_of_lt_succ hi),
      decide_eq_true hi, Bool.true_and]
  constructor
  · rw [commandField, cat8_bit, if_neg high, Nat.sub_right_comm, byte_bit]
  · rw [commandField, cat8_bit, if_pos mirror_lt, comp8_bit, decide_eq_true mirror_lt, Bool.true_and, byte_bit]

/-- The normal address field is made from the address as the command field from the command (R49, R52). -/
theorem addressFieldN_eq_commandField (n : Nat) : addressFieldN n = commandField n := rfl

theorem cat16_bit_upper (x y : Half) {i : Nat} (hi : i < 16) :
    (cat16 x y).getLsbD (31 - i) = x.getLsbD (15 - i) := by
  rw [cat16_bit, if_neg (by omega), Nat.sub_right_comm]

theorem cat16_bit_lower (x y : Half) {i : Nat} (hi : i < 16) : (cat16 x y).getLsbD i = y.getLsbD i := by
  rw [cat16_bit, if_pos hi]

/-- The lower half of either format (R42). -/
theorem cat16_commandField_bits (x : Half) (c : Nat) {i : Nat} (hi : i < 8) :
    (cat16 x (commandField c)).getLsbD (15 - i) = c.testBit i ∧
      (cat16 x (commandField c)).getLsbD (7 - i) = !c.testBit i := by
  rw [cat16_bit_lower _ _ (by omega), cat16_bit_lower _ _ (by omega)]
  exact commandField_bits c hi

/-- The upper half of P_NORMAL (R42). -/
theorem payloadNormal_address_bits (a c : Nat) {i : Nat} (hi : i < 8) :
    (payloadNormal a c).getLsbD (31 - i) = a.testBit i ∧ (payloadNormal a c).getLsbD (23 - i) = !a.testBit i := by
  have second : 23 - i = 31 - (8 + i) := by omega
  rw [payloadNormal, second, cat16_bit_upper _ _ (by omega), cat16_bit_upper _ _ (by omega), ← Nat.sub_sub,
    addressFieldN_eq_commandField]
  exact commandField_bits a hi

/-- The upper half of P_EXTENDED (R42). -/
theorem payloadExtended_address_bit (a c : Nat) {i : Nat} (hi : i < 16) :
    (payloadExtended a c).getLsbD (31 - i) = a.testBit i := by
  rw [payloadExtended, cat16_bit_upper _ _ hi, addrRev16_bit_of_lt a (by omega),
    Nat.sub_sub_self (Nat.le_of_lt_succ hi)]

/-- Settles O22: the upper and the lower half of each format. -/
theorem everyPayloadBitIsOneInputBit : Obligations.EveryPayloadBitIsOneInputBit := by
  refine ⟨fun s t a c v h hv i hi => ?normal, fun s t a c v h hv => ?extended⟩
  case normal =>
    rw [payload_eq_of_exec_encodeNormal h hv]
    obtain ⟨address, complement⟩ := payloadNormal_address_bits a c hi
    exact ⟨address, complement, cat16_commandField_bits _ c hi⟩
  case extended =>
    rw [payload_eq_of_exec_encodeExtended h hv]
    exact ⟨fun i hi => payloadExtended_address_bit a c hi, fun i hi => cat16_commandField_bits _ c hi⟩

/-! ## The order on the wire -/

/-- The first `n` of the lowest `n + m` bits, sent from the top down. -/
theorem bitsDown_eq_map_append {v : Payload} {n m : Nat} {f : Nat → Bool}
    (h : ∀ i < n, v.getLsbD (n + m - 1 - i) = f i) : bitsDown v (n + m) = (List.range n).map f ++ bitsDown v m := by
  induction n generalizing f with
  | zero => rw [Nat.zero_add]; rfl
  | succ n ih =>
    have first : v.getLsbD (n + m) = f 0 := by rw [← h 0 n.succ_pos]; congr 1; omega
    have rest : ∀ i < n, v.getLsbD (n + m - 1 - i) = f (i + 1) := fun i hi => by
      rw [← h (i + 1) (Nat.succ_lt_succ hi)]; congr 1; omega
    rw [List.range_succ_eq_map, List.map_cons, List.map_map, List.cons_append, Nat.succ_add, bitsDown, first, ih rest]
    rfl

/-- The lower half of either format on the wire: the command, then its complement. -/
theorem bitsDown_cat16_commandField (x : Half) (c : Nat) :
    bitsDown (cat16 x (commandField c)) 16 =
      (List.range 8).map (fun i => c.testBit i) ++ (List.range 8).map (fun i => !c.testBit i) := by
  have command := bitsDown_eq_map_append (n := 8) (m := 8) fun i hi => (cat16_commandField_bits x c hi).1
  have complement := bitsDown_eq_map_append (n := 8) (m := 0) fun i hi => (cat16_commandField_bits x c hi).2
  exact command.trans (congrArg _ (complement.trans (List.append_nil _)))

/-- Settles O24: the 32 bits are cut at the ends of the fields, and each field's bits are read from the bit map. -/
theorem wireOrderIsLeastSignificantBitFirst : Obligations.WireOrderIsLeastSignificantBitFirst := by
  intro a c
  constructor
  · have address := bitsDown_eq_map_append (n := 8) (m := 24) fun i hi => (payloadNormal_address_bits a c hi).1
    have complement := bitsDown_eq_map_append (n := 8) (m := 16) fun i hi => (payloadNormal_address_bits a c hi).2
    rw [List.append_assoc, List.append_assoc, ← bitsDown_cat16_commandField (addressFieldN a) c]
    exact address.trans (congrArg _ complement)
  · rw [List.append_assoc, ← bitsDown_cat16_commandField (addrRev16 a) c]
    exact bitsDown_eq_map_append (n := 16) (m := 16) fun i hi => payloadExtended_address_bit a c hi

end Sys2Proof.Machine
end

section
/-! ENCODE, the combined function (R57), and the meanings of the three classes as its cases (R54 to R56, R67). -/

namespace Sys2Proof.Machine

/-! ## The three answers of ENCODE -/

theorem encodeNec_normal (p : Params) {a : Nat} (h : a ≤ 0xFF) (c : Nat) :
    encodeNec p a c = { payload := payloadNormal a c, err := false } := by
  obtain ⟨-, e⟩ | ⟨above, -⟩ | ⟨above, -⟩ := encodeNec_cases p a c
  · exact e
  · omega
  · omega

theorem encodeNec_extended {p : Params} {a : Nat} (above : 0xFF < a) (h : a ≤ 0xFFFF ∨ p.policy = .truncate)
    (c : Nat) : encodeNec p a c = { payload := payloadExtended a c, err := false } := by
  obtain ⟨range, -⟩ | ⟨-, -, e⟩ | ⟨high, reject, -⟩ := encodeNec_cases p a c
  · omega
  · exact e
  · rcases h with range | truncate
    · omega
    · rw [truncate] at reject; cases reject

theorem encodeNec_rejected {p : Params} {a : Nat} (above : 0xFFFF < a) (h : p.policy = .reject) (c : Nat) :
    encodeNec p a c = { payload := 0x00000000#32, err := true } := by
  obtain ⟨range, -⟩ | ⟨-, range | truncate, -⟩ | ⟨-, -, e⟩ := encodeNec_cases p a c
  · omega
  · omega
  · rw [truncate] at h; cases h
  · exact e

/-- The error level is the cause of `AddressOutOfRange` (R67, R68). -/
theorem encodeNec_err_iff (p : Params) (a c : Nat) :
    (encodeNec p a c).err = true ↔ p.policy = .reject ∧ 0xFFFF < a := by
  constructor
  · intro h
    obtain ⟨-, e⟩ | ⟨-, -, e⟩ | ⟨above, reject, -⟩ := encodeNec_cases p a c
    · rw [e] at h; cases h
    · rw [e] at h; cases h
    · exact ⟨reject, above⟩
  · rintro ⟨reject, above⟩
    rw [encodeNec_rejected above reject]

/-- Settles O8: each branch of the pseudocode is the answer of ENCODE for its condition. -/
theorem combinedFunctionFollowsItsPseudocode : Obligations.CombinedFunctionFollowsItsPseudocode := by
  intro p a c cr r
  split
  case isTrue rejected => exact encodeNec_rejected rejected.2 rejected.1 c
  case isFalse accepted =>
    split
    case isTrue above =>
      refine encodeNec_extended above ?_ c
      cases policy : p.policy with
      | truncate => exact .inr rfl
      | reject => exact .inl (Nat.le_of_not_lt fun high => accepted ⟨policy, high⟩)
    case isFalse range => exact encodeNec_normal p (Nat.le_of_not_lt range) c

/-! ## The meanings -/

/-- OVERRANGE drives ENCODE of its operands (R56). -/
theorem exec_encodeOverrange {s : State} {a : Nat} (above : 0xFFFF < a) (c : Nat) :
    exec (.encodeOverrange a c) s =
      .next (s.driveOutputs (encodeNec s.params a c).payload (encodeNec s.params a c).err) := by
  rw [exec, execEncodeOverrange]
  cases policy : s.params.policy with
  | truncate => rw [encodeNec_extended (by omega) (.inr policy)]
  | reject => rw [encodeNec_rejected above policy]; rfl

/-- An instruction whose address is in its class drives ENCODE of its operands. -/
theorem exec_of_inClass {i : Instr} (h : i.inClass = true) (s : State) :
    exec i s = .next (s.driveOutputs (encodeNec s.params i.addr i.cmd).payload
      (encodeNec s.params i.addr i.cmd).err) := by
  cases i with
  | encodeNormal a c =>
    have range : a ≤ 0xFF := of_decide_eq_true h
    rw [Instr.addr_encodeNormal, encodeNec_normal _ range]; rfl
  | encodeExtended a c =>
    obtain ⟨above, range⟩ : 0xFF < a ∧ a ≤ 0xFFFF := by
      simpa only [Instr.inClass, Bool.and_eq_true, decide_eq_true_eq] using h
    rw [Instr.addr_encodeExtended, encodeNec_extended above (.inl range)]; rfl
  | encodeOverrange a c => exact exec_encodeOverrange (of_decide_eq_true h) c

theorem inClass_of_wf {p : Params} {i : Instr} (h : i.wf p = true) : i.inClass = true := by
  rw [Instr.wf, Bool.and_eq_true] at h
  exact h.2

/-- What a request decodes to drives ENCODE of the request (R57). -/
theorem exec_of_decodePair {s : State} {a c : Nat} {i : Instr} (h : decodePair s.params a c = .ok i) :
    exec i s = .next (s.driveOutputs (encodeNec s.params a c).payload (encodeNec s.params a c).err) := by
  obtain ⟨rfl, rfl, wf⟩ := decodePair_eq_ok_iff.mp h
  exact exec_of_inClass (inClass_of_wf wf) s

/-- Settles O21: every decoded instruction has its address in its class. -/
theorem decodedMeaningsRefineTheCombinedFunction : Obligations.DecodedMeaningsRefineTheCombinedFunction :=
  fun _ _ _ _ => exec_of_decodePair

/-- The extended address field reads the low 16 address bits only (R53). -/
theorem payloadExtended_congr {a a' : Nat} (h : a % 0x10000 = a' % 0x10000) (c : Nat) :
    payloadExtended a c = payloadExtended a' c := by
  have slice : a16 a = a16 a' := BitVec.eq_of_toNat_eq h
  rw [payloadExtended, payloadExtended, addrRev16, addrRev16, slice]

theorem exec_encodeOverrange_of_truncate {s : State} (h : s.params.policy = .truncate) (a c : Nat) :
    exec (.encodeOverrange a c) s = exec (.encodeExtended a c) s := by
  simp only [exec, execEncodeOverrange, h]; rfl

/-- Settles O18: under `TRUNCATE` the class runs as EXTENDED, whose payload reads the low 16 address bits only; the
two listed payloads are evaluated. -/
theorem overrangeRequestTruncates : Obligations.OverrangeRequestTruncates := by
  refine ⟨fun s a c _ h => ?format, fun s a c k _ _ _ h => ?multiple, fun s h => ⟨?corner, ?zero⟩⟩
  case multiple =>
    rw [exec_encodeOverrange_of_truncate h, exec_encodeExtended, exec_encodeExtended,
      payloadExtended_congr (Nat.add_mul_mod_self_right a k 0x10000)]
  all_goals rw [exec_encodeOverrange_of_truncate h]
  case format => exact exec_encodeExtended_of_payload (cat16_cat8 _ _ _) s
  case corner => exact exec_encodeExtended_of_payload (by decide) s
  case zero => exact exec_encodeExtended_of_payload (by decide) s

/-- Settles O19: under `REJECT` ENCODE of an OVERRANGE address is the error, and the error level of ENCODE is its
cause. -/
theorem overrangeRequestIsRejected : Obligations.OverrangeRequestIsRejected := by
  refine ⟨fun s a c above h => ?_, fun i s t inClass h => ?_, fun v => rfl⟩
  · rw [exec_encodeOverrange above, encodeNec_rejected above h]; rfl
  · obtain rfl := Host.Outcome.next.inj ((exec_of_inClass inClass s).symm.trans h)
    rw [State.driveOutputs_err_o, Option.some.injEq, encodeNec_err_iff]

/-- Settles O20: an instruction drives the outputs and does nothing else. -/
theorem operationsChangeOnlyTheOutputs : Obligations.OperationsChangeOnlyTheOutputs := by
  intro i s t h
  obtain ⟨v, b, e⟩ := exec_cases i s
  obtain rfl := Host.Outcome.next.inj (e.symm.trans h)
  exact ⟨rfl, rfl, rfl, rfl, rfl, rfl, rfl⟩

/-! ## Laws of ENCODE -/

theorem payloadExtended_congr_command (a : Nat) {c c' : Nat} (h : c % 256 = c' % 256) :
    payloadExtended a c = payloadExtended a c' := by
  rw [payloadExtended, payloadExtended, commandField_congr h]

/-- Only the low command byte reaches an output (R62). -/
theorem encodeNec_congr (p : Params) (a : Nat) {c c' : Nat} (h : c % 256 = c' % 256) :
    encodeNec p a c = encodeNec p a c' := by
  rw [encodeNec, encodeNec, payloadNormal_congr a h, payloadExtended_congr_command a h]

/-- Settles O25: both formats read the low command byte only, and the error reads no command. -/
theorem onlyTheLowCommandByteMatters : Obligations.OnlyTheLowCommandByteMatters := by
  intro p a c c' h
  have low : c % 256 = (c &&& 0xFF) % 256 := by
    rw [Nat.and_two_pow_sub_one_eq_mod c 8, Nat.mod_mod]
  exact ⟨encodeNec_congr p a h, encodeNec_congr p a low⟩

/-- The address field of an accepted payload (R52, R53). -/
def addressField (a : Nat) : Half := if a ≤ 0xFF then addressFieldN a else addrRev16 a

theorem addressField_normal {a : Nat} (h : a ≤ 0xFF) : addressField a = cat8 (addrRev8 a) (comp8 (addrRev8 a)) := by
  rw [addressField, if_pos h, addressFieldN]

theorem addressField_extended {a : Nat} (h : 0xFF < a) : addressField a = addrRev16 a := by
  rw [addressField, if_neg (Nat.not_le_of_lt h)]

/-- An accepted payload is the address field above the command field (R40, R41). -/
theorem encodeNec_payload_of_accepted {p : Params} {a c : Nat} (h : (encodeNec p a c).err = false) :
    (encodeNec p a c).payload = cat16 (addressField a) (commandField c) := by
  obtain ⟨range, e⟩ | ⟨above, -, e⟩ | ⟨-, -, e⟩ := encodeNec_cases p a c
  · rw [e, addressField_normal range]; rfl
  · rw [e, addressField_extended above, payloadExtended]
  · rw [e] at h; cases h

/-- The four bytes of a payload made of two halves. -/
theorem cat16_bytes (x y : Half) :
    (cat16 x y).extractLsb' 24 8 = x.extractLsb' 8 8 ∧ (cat16 x y).extractLsb' 16 8 = x.extractLsb' 0 8 ∧
      (cat16 x y).extractLsb' 8 8 = y.extractLsb' 8 8 ∧ (cat16 x y).extractLsb' 0 8 = y.extractLsb' 0 8 := by
  have fields := wireBytes_cat16 x y
  simpa only [wireBytes, List.cons.injEq, and_true] using fields

/-- Fields 3 and 4 of an accepted payload: the reversed command byte and its checksum (R49). -/
theorem encodeNec_command_bytes {p : Params} {a c : Nat} (h : (encodeNec p a c).err = false) :
    (encodeNec p a c).payload.extractLsb' 8 8 = cmdRev c ∧
      (encodeNec p a c).payload.extractLsb' 0 8 = comp8 (cmdRev c) := by
  obtain ⟨-, -, third, fourth⟩ := cat16_bytes (addressField a) (commandField c)
  rw [encodeNec_payload_of_accepted h, third, fourth, commandField, cat8_high, cat8_low]
  exact ⟨rfl, rfl⟩

/-- Fields 1 and 2 of a normal payload: the reversed address byte and its checksum (R52). -/
theorem payloadNormal_address_bytes (a c : Nat) :
    (payloadNormal a c).extractLsb' 24 8 = addrRev8 a ∧
      (payloadNormal a c).extractLsb' 16 8 = comp8 (addrRev8 a) := by
  obtain ⟨first, second, -, -⟩ := cat16_bytes (addressFieldN a) (commandField c)
  rw [payloadNormal, first, second, addressFieldN, cat8_high, cat8_low]
  exact ⟨rfl, rfl⟩

/-- Settles O26: in every accepted payload field 4 is the checksum of field 3, and in every normal one field 2 is the
checksum of field 1. -/
theorem checksumBytesXorToAllOnes : Obligations.ChecksumBytesXorToAllOnes := by
  constructor
  · rintro p o ⟨a, c, -, -, rfl⟩ h
    obtain ⟨command, checksum⟩ := encodeNec_command_bytes h
    exact (xor_eq_allOnes_iff _ _).mpr (by rw [checksum, command])
  · intro p a c range
    obtain ⟨address, checksum⟩ := payloadNormal_address_bytes a c
    rw [encodeNec_normal p range]
    exact ⟨rfl, by rw [checksum, address, comp8]⟩

/-- Settles O27: the two addresses at the boundary take their own format; the listed values are evaluated. -/
theorem branchBoundaryAtOneByte : Obligations.BranchBoundaryAtOneByte := by
  intro p c
  refine ⟨?_, ?_, ?_, ?_, by decide⟩
  · rw [encodeNec_normal p (by decide)]; rfl
  · rw [encodeNec_extended (by decide) (.inl (by decide))]; rfl
  · rw [encodeNec_normal p (by decide)]; rfl
  · rw [encodeNec_extended (by decide) (.inl (by decide))]; rfl

/-- Settles O28: each field is the reversal of its operand, and reversing twice gives the operand back. -/
theorem operandsAreRecoverableFromThePayload : Obligations.OperandsAreRecoverableFromThePayload := by
  intro p a c h
  obtain ⟨command, -⟩ := encodeNec_command_bytes h
  refine ⟨?_, fun range => ?_, fun above => ?_⟩
  · rw [command, cmdRev, rev8_rev8]; rfl
  · obtain ⟨address, -⟩ := payloadNormal_address_bytes a c
    rw [encodeNec_normal p range, address, addrRev8, rev8_rev8]
    exact (Nat.mod_eq_of_lt (Nat.lt_succ_of_le range)).symm
  · rw [encodeNec_payload_of_accepted h, addressField_extended above, cat16_high, addrRev16, rev16_rev16]
    rfl

end Sys2Proof.Machine
end

section
/-! The machine: what a step does with the request on the ports (R11, R20, R84), the invariant of State and what
follows from it for the host (R19, R20, R68, R82, R85, D21). -/

namespace Sys2Proof.Machine

/-! ## The request on the ports -/

theorem portsWide_iff {s : State} :
    s.portsWide = true ↔ s.addr_i.length = s.params.aw ∧ s.cmd_i.length = s.params.cw := by
  rw [State.portsWide, Bool.and_eq_true, decide_eq_true_eq, decide_eq_true_eq]

theorem request_fits {s : State} {a c : Nat} (wide : s.portsWide = true) (hr : s.request = some (a, c)) :
    a < 2 ^ s.params.aw ∧ c < 2 ^ s.params.cw := by
  obtain ⟨addr_len, cmd_len⟩ := portsWide_iff.mp wide
  obtain ⟨ha, hc⟩ := request_eq_some.mp hr
  rw [← addr_len, ← cmd_len]
  exact ⟨portValue_lt ha, portValue_lt hc⟩

theorem request_congr {s s' : State} (ha : s.addr_i = s'.addr_i) (hc : s.cmd_i = s'.cmd_i) :
    s.request = s'.request := by
  rw [State.request, State.request, ha, hc]

/-- A number that fits its port is read back from it. -/
theorem portValue_levelsOf_of_lt {n v : Nat} (h : v < 2 ^ n) : portValue (levelsOf n v) = some v := by
  rw [portValue_levelsOf, Nat.mod_eq_of_lt h]

/-! ## Evaluating it -/

/-- A request on ports of the right widths drives ENCODE of it (R20). -/
theorem evaluate_of_request {s : State} {a c : Nat} (wide : s.portsWide = true) (hr : s.request = some (a, c)) :
    s.evaluate = .next (s.driveOutputs (encodeNec s.params a c).payload (encodeNec s.params a c).err) := by
  obtain ⟨ha, hc⟩ := request_fits wide hr
  obtain ⟨i, hd⟩ := decodePair_ok ha hc
  rw [evaluate_eq_exec hr hd, exec_of_decodePair hd]

theorem evaluate_of_request_none {s : State} (hr : s.request = none) : s.evaluate = .refused .undrivenInput := by
  rw [State.evaluate, hr]

/-- Holding a request on ports of the right widths drives ENCODE of it and takes the host's action off (R20). -/
theorem step_of_request {s : State} {a c : Nat} (wide : s.portsWide = true) (holding : s.holding = true)
    (hr : s.request = some (a, c)) :
    step s = .next (s.advance.driveOutputs (encodeNec s.params a c).payload (encodeNec s.params a c).err) := by
  rw [step_holding holding]
  exact evaluate_of_request wide hr

theorem step_of_request_none {s : State} (holding : s.holding = true) (hr : s.request = none) :
    step s = .refused .undrivenInput := by
  rw [step_holding holding]
  exact evaluate_of_request_none hr

/-- Settles O34: holding evaluates the state less its action, and evaluating runs the decoded instruction. -/
theorem stepRunsTheDecodedRequest : Obligations.StepRunsTheDecodedRequest := by
  intro s a c i holding hr hd
  rw [step_holding holding]
  exact evaluate_eq_exec hr hd

/-- Settles O36: the held request fits its ports and so decodes, and its meaning drives ENCODE. -/
theorem heldInputsDriveEncodeOfTheInputs : Obligations.HeldInputsDriveEncodeOfTheInputs :=
  fun _ _ _ => step_of_request

/-- Settles O37: with no undefined wire the ports carry a request, and its step drives both outputs. -/
theorem everyDrivenRequestCompletes : Obligations.EveryDrivenRequestCompletes := by
  intro s wide holding addr_defined cmd_defined
  cases hr : s.request with
  | none => exact absurd (request_eq_none.mp hr) (not_or.mpr ⟨addr_defined, cmd_defined⟩)
  | some r => exact ⟨_, _, _, step_of_request wide holding hr, rfl, rfl⟩

/-- Settles O38: an undefined wire is no request, which is refused; and a request completes. -/
theorem holdIsRefusedExactlyOnUndefinedLevels : Obligations.HoldIsRefusedExactlyOnUndefinedLevels := by
  intro s wide holding
  rw [← request_eq_none]
  constructor
  · exact step_of_request_none holding
  · intro refused
    cases hr : s.request with
    | none => rfl
    | some r => rw [step_of_request wide holding hr] at refused; cases refused

/-- Running a request does not read the outputs that stand there. -/
theorem exec_driveOutputs (i : Instr) (s : State) (v : Payload) (b : Bool) :
    exec i (s.driveOutputs v b) = exec i s := by
  cases i with
  | encodeNormal a c => rfl
  | encodeExtended a c => rfl
  | encodeOverrange a c => rfl

/-- Settles O41: the step drives the outputs only, and running the same request again drives them alike. -/
theorem evaluatingAgainChangesNothing : Obligations.EvaluatingAgainChangesNothing := by
  intro s t idle h
  rw [step_idle idle] at h
  obtain ⟨-, e⟩ | ⟨a, c, _, -, -, e⟩ | ⟨a, c, i, hr, hd, e⟩ := evaluate_cases s
  · rw [e] at h; cases h
  · rw [e] at h; cases h
  · obtain ⟨v, b, driven⟩ := exec_cases i s
    obtain rfl := Host.Outcome.next.inj (driven.symm.trans (e.symm.trans h))
    rw [step_idle (s := s.driveOutputs v b) idle, evaluate_eq_exec (s := s.driveOutputs v b) hr hd,
      exec_driveOutputs, driven]

/-- What a block evaluates to is settled by its parameters and the request on its ports (R13, R61). -/
theorem evaluate_congr {s s' : State} (hp : s.params = s'.params) (hr : s.request = s'.request) :
    (∃ t t', s.evaluate = .next t ∧ s'.evaluate = .next t' ∧ t.payload_o = t'.payload_o ∧ t.err_o = t'.err_o) ∨
      (∃ r, s.evaluate = .refused r ∧ s'.evaluate = .refused r) := by
  obtain ⟨undefined, e⟩ | ⟨a, c, err, pair, hd, e⟩ | ⟨a, c, i, pair, hd, e⟩ := evaluate_cases s
  · exact .inr ⟨_, e, evaluate_of_request_none (hr ▸ undefined)⟩
  · refine .inr ⟨_, e, ?_⟩
    rw [State.evaluate, ← hr, pair, ← hp]
    simp only [hd]
  · have hd' := hp ▸ hd
    rw [e, exec_of_decodePair hd, evaluate_eq_exec (hr ▸ pair) hd', exec_of_decodePair hd', hp]
    exact .inl ⟨_, _, rfl, rfl, rfl, rfl⟩

/-- Settles O44: both states hold, and so both evaluate the same request at the same parameters. -/
theorem outputsDependOnlyOnTheInputs : Obligations.OutputsDependOnlyOnTheInputs := by
  intro s s' hp ha hc holding holding'
  rw [step_holding holding, step_holding holding']
  exact evaluate_congr (s := s.advance) (s' := s'.advance) hp (request_congr ha hc)

/-- Settles O45: both requests complete with ENCODE, which reads the low command byte only. -/
theorem highCommandBitsNeverReachAnOutput : Obligations.HighCommandBitsNeverReachAnOutput := by
  intro s a c c' wide holding hr hc' low
  obtain ⟨ha, -⟩ := request_eq_some.mp hr
  obtain ⟨addr_len, -⟩ := portsWide_iff.mp wide
  have hr' : ({ s with cmd_i := levelsOf s.params.cw c' } : State).request = some (a, c') :=
    request_eq_some.mpr ⟨ha, portValue_levelsOf_of_lt hc'⟩
  have wide' : ({ s with cmd_i := levelsOf s.params.cw c' } : State).portsWide = true :=
    portsWide_iff.mpr ⟨addr_len, levelsOf_length _ _⟩
  refine ⟨_, _, step_of_request wide holding hr, step_of_request wide' holding hr', ?_, ?_⟩
  · exact congrArg (fun o => some o.payload) (encodeNec_congr s.params a low)
  · exact congrArg (fun o => some o.err) (encodeNec_congr s.params a low)

/-! ## Placing a request -/

theorem presentReq_request {s : State} {w : Nat} (ha : reqAddr s.params w < 2 ^ s.params.aw)
    (hc : reqCmd s.params w < 2 ^ s.params.cw) :
    (s.presentReq w).request = some (reqAddr s.params w, reqCmd s.params w) :=
  request_eq_some.mpr ⟨portValue_levelsOf_of_lt ha, portValue_levelsOf_of_lt hc⟩

/-- Settles O35: the placed word stands on the ports as the pair of its fields, with no host action before it. -/
theorem placedWordRunsNext : Obligations.PlacedWordRunsNext := by
  intro s nbits w i hw hd
  obtain ⟨ha, hc, -⟩ := decodePair_cases hd
  rw [State.withFetchWord, Nat.mod_eq_of_lt hw, step_idle (s := s.presentReq w) rfl]
  exact evaluate_eq_exec (presentReq_request ha hc) hd

/-! ## The invariant -/

/-- Settles O32: each field is the value that power-up gives it. -/
theorem resetPortsHoldNoRequest : Obligations.ResetPortsHoldNoRequest :=
  ⟨rfl, rfl, rfl, rfl, rfl, rfl, rfl, rfl, rfl, rfl⟩

theorem observation_eq_iff {v : Payload} {b : Bool} {o : Observation} :
    ({ payload := v, err := b } : Observation) = o ↔ v = o.payload ∧ b = o.err := by
  cases o
  rw [Observation.mk.injEq]

/-- The outputs agree with the inputs when they are at rest, or are ENCODE of the request on the ports. -/
theorem outputsAgree_iff {s : State} :
    s.outputsAgree = true ↔
      (s.payload_o = none ∧ s.err_o = errAtRest s.params) ∨
        ∃ a c, s.request = some (a, c) ∧ s.payload_o = some (encodeNec s.params a c).payload ∧
          s.err_o = some (encodeNec s.params a c).err := by
  unfold State.outputsAgree
  rcases s.payload_o with _ | v
  · simp
  · rcases s.err_o with _ | b
    · simp
    · rcases s.request with _ | ⟨a, c⟩
      · simp
      · simp [observation_eq_iff]

theorem wf_iff {s : State} : s.wf = true ↔ s.portsWide = true ∧ s.outputsAgree = true := by
  rw [State.wf, Bool.and_eq_true]

theorem portsWide_of_wf {s : State} (wf : s.wf = true) : s.portsWide = true := (wf_iff.mp wf).1

theorem unsettle_wf {s : State} (wide : s.portsWide = true) : s.unsettle.wf = true :=
  wf_iff.mpr ⟨wide, outputsAgree_iff.mpr (.inl ⟨rfl, rfl⟩)⟩

/-- Settles O33: every port has its wires and the outputs are at rest. -/
theorem powerUpIsWellFormed : Obligations.PowerUpIsWellFormed := fun p =>
  unsettle_wf (s := State.powerUp p) (portsWide_iff.mpr ⟨List.length_replicate, List.length_replicate⟩)

theorem driveAddrPort_wf {s : State} (wf : s.wf = true) (ls : List Level) : (s.driveAddrPort ls).wf = true := by
  obtain ⟨-, cmd_len⟩ := portsWide_iff.mp (portsWide_of_wf wf)
  obtain ⟨-, e⟩ | ⟨-, e⟩ := driveAddrPort_cases s ls
  · rw [e, wf]
  · rw [e]
    exact unsettle_wf (portsWide_iff.mpr ⟨connect_length _ _, cmd_len⟩)

theorem driveCmdPort_wf {s : State} (wf : s.wf = true) (ls : List Level) : (s.driveCmdPort ls).wf = true := by
  obtain ⟨addr_len, -⟩ := portsWide_iff.mp (portsWide_of_wf wf)
  obtain ⟨-, e⟩ | ⟨-, e⟩ := driveCmdPort_cases s ls
  · rw [e, wf]
  · rw [e]
    exact unsettle_wf (portsWide_iff.mpr ⟨addr_len, connect_length _ _⟩)

/-- Running the request on the ports leaves outputs that are ENCODE of it. -/
theorem exec_wf {s t : State} {a c : Nat} {i : Instr} (wide : s.portsWide = true) (hr : s.request = some (a, c))
    (hd : decodePair s.params a c = .ok i) (h : exec i s = .next t) : t.wf = true := by
  obtain rfl := Host.Outcome.next.inj ((exec_of_decodePair hd).symm.trans h)
  exact wf_iff.mpr ⟨wide, outputsAgree_iff.mpr (.inr ⟨a, c, hr, rfl, rfl⟩)⟩

/-- Settles O47: a drive leaves the state or unsettles it, an evaluation drives ENCODE of the request on the ports,
and a sample touches neither ports nor outputs. -/
theorem wellFormedStateIsKept : Obligations.WellFormedStateIsKept := by
  intro s t wf h
  obtain ⟨u, ⟨rest, rfl⟩, ⟨ls, rfl⟩ | ⟨ls, rfl⟩ | ⟨a, c, i, -, -, hr, hd, he, -⟩ | ⟨v, b, -, -, rfl⟩⟩ := step_cases h
  · exact driveAddrPort_wf (s := { s with pending := rest }) wf ls
  · exact driveCmdPort_wf (s := { s with pending := rest }) wf ls
  · exact exec_wf (s := { s with pending := rest }) (portsWide_of_wf wf) hr hd he
  · exact wf

theorem driveAddrPort_frame (s : State) (ls : List Level) :
    (s.driveAddrPort ls).params = s.params ∧ (s.driveAddrPort ls).observed = s.observed := by
  obtain ⟨-, e⟩ | ⟨-, e⟩ := driveAddrPort_cases s ls <;> rw [e] <;> exact ⟨rfl, rfl⟩

theorem driveCmdPort_frame (s : State) (ls : List Level) :
    (s.driveCmdPort ls).params = s.params ∧ (s.driveCmdPort ls).observed = s.observed := by
  obtain ⟨-, e⟩ | ⟨-, e⟩ := driveCmdPort_cases s ls <;> rw [e] <;> exact ⟨rfl, rfl⟩

/-- A step keeps the parameters, and adds at most the two outputs that stand on the ports to the observations. -/
theorem step_observed {s t : State} (h : step s = .next t) :
    t.params = s.params ∧ (t.observed = s.observed ∨
      ∃ v b, s.payload_o = some v ∧ s.err_o = some b ∧
        t.observed = s.observed ++ [{ payload := v, err := b }]) := by
  obtain ⟨u, ⟨rest, rfl⟩, ⟨ls, rfl⟩ | ⟨ls, rfl⟩ | ⟨-, -, -, v, b, -, -, -, rfl⟩ | ⟨v, b, hv, hb, rfl⟩⟩ := step_cases h
  · obtain ⟨params, observed⟩ := driveAddrPort_frame { s with pending := rest } ls
    exact ⟨params, .inl observed⟩
  · obtain ⟨params, observed⟩ := driveCmdPort_frame { s with pending := rest } ls
    exact ⟨params, .inl observed⟩
  · exact ⟨rfl, .inl rfl⟩
  · exact ⟨rfl, .inr ⟨v, b, hv, hb, rfl⟩⟩

/-- Settles O46: none of the things a step can do touches the parameters. -/
theorem parametersNeverChange : Obligations.ParametersNeverChange := fun _ _ h => (step_observed h).1

/-- Outputs that have a value are those of the request on the ports, which fits them (D21). -/
theorem outputs_sound {s : State} {v : Payload} {b : Bool} (wf : s.wf = true) (hv : s.payload_o = some v)
    (hb : s.err_o = some b) : ({ payload := v, err := b } : Observation).sound s.params := by
  obtain ⟨wide, agree⟩ := wf_iff.mp wf
  obtain ⟨unset, -⟩ | ⟨a, c, hr, payload, err⟩ := outputsAgree_iff.mp agree
  · rw [unset] at hv; cases hv
  · obtain rfl := Option.some.inj (hv.symm.trans payload)
    obtain rfl := Option.some.inj (hb.symm.trans err)
    obtain ⟨ha, hc⟩ := request_fits wide hr
    exact ⟨a, c, ha, hc, rfl⟩

/-- Settles O48: the one new observation is of the outputs of a well-formed state. -/
theorem observationsAreEncodings : Obligations.ObservationsAreEncodings := by
  intro s t wf sound h o ho
  obtain ⟨params, kept | ⟨v, b, hv, hb, added⟩⟩ := step_observed h
  · rw [kept] at ho
    exact params ▸ sound o ho
  · rw [added, List.mem_append, List.mem_singleton] at ho
    rw [params]
    obtain old | rfl := ho
    · exact sound o old
    · exact outputs_sound wf hv hb

end Sys2Proof.Machine
end

section
/-! The host at the ports (R82, R85, R86, R89): drives, samples and whole requests, and the error level that it
reads (R68). -/

namespace Sys2Proof.Machine

/-! ## Samples -/

/-- A sample of outputs that have a value gives the host both. -/
theorem step_sample {s : State} {rest : List HostAction} {v : Payload} {b : Bool}
    (hp : s.pending = .sample :: rest) (hv : s.payload_o = some v) (hb : s.err_o = some b) :
    step s = .next { s with pending := rest, observed := s.observed ++ [{ payload := v, err := b }] } := by
  rw [step_act hp, State.perform, State.sampleOutputs]
  simp only [hv, hb]

/-- In a well-formed state `err_o` has a value wherever `payload_o` has one. -/
theorem err_o_of_payload_o {s : State} {v : Payload} (wf : s.wf = true) (hv : s.payload_o = some v) :
    ∃ b, s.err_o = some b := by
  obtain ⟨-, agree⟩ := wf_iff.mp wf
  obtain ⟨unset, -⟩ | ⟨a, c, -, -, err⟩ := outputsAgree_iff.mp agree
  · rw [unset] at hv; cases hv
  · exact ⟨_, err⟩

/-- Settles O39: `payload_o` alone decides, since `err_o` has a value wherever it has one. -/
theorem sampleNeedsSettledOutputs : Obligations.SampleNeedsSettledOutputs := by
  intro s rest wf hp
  have settled (v : Payload) (hv : s.payload_o = some v) : ∃ b, s.err_o = some b ∧
      step s = .next { s with pending := rest, observed := s.observed ++ [{ payload := v, err := b }] } := by
    obtain ⟨b, hb⟩ := err_o_of_payload_o wf hv
    exact ⟨b, hb, step_sample hp hv hb⟩
  refine ⟨⟨fun unset => ?_, fun refused => ?_⟩, settled⟩
  · rw [step_act hp, State.perform, State.sampleOutputs]
    simp only [unset]
  · cases hv : s.payload_o with
    | none => rfl
    | some v =>
      obtain ⟨b, -, next⟩ := settled v hv
      rw [next] at refused
      cases refused

/-! ## Drives -/

theorem errAtRest_eq_ite (p : Params) :
    errAtRest p = if p.policy = .reject ∧ 16 < p.aw then none else some false := by
  simp only [errAtRest, canReject, Bool.and_eq_true, decide_eq_true_eq]

/-- Settles O40: each drive leaves the state or changes its own port and unsettles the outputs. -/
theorem inputChangeUnsettlesTheOutputs : Obligations.InputChangeUnsettlesTheOutputs := by
  intro s ls rest
  rw [← errAtRest_eq_ite]
  refine ⟨fun hp => ⟨_, step_act hp, ?_⟩, fun hp => ⟨_, step_act hp, ?_⟩⟩
  · obtain ⟨same, e⟩ | ⟨change, e⟩ := driveAddrPort_cases { s with pending := rest } ls
    · rw [e]
      exact ⟨same.symm, rfl, rfl, rfl, fun change => absurd rfl change, fun _ => rfl⟩
    · rw [e]
      exact ⟨rfl, rfl, rfl, rfl, fun _ => ⟨rfl, rfl⟩, fun same => absurd same change⟩
  · obtain ⟨same, e⟩ | ⟨change, e⟩ := driveCmdPort_cases { s with pending := rest } ls
    · rw [e]
      exact ⟨same.symm, rfl, rfl, rfl, fun change => absurd rfl change, fun _ => rfl⟩
    · rw [e]
      exact ⟨rfl, rfl, rfl, rfl, fun _ => ⟨rfl, rfl⟩, fun same => absurd same change⟩

/-- Driving a number on `addr_i` puts it there and leaves `cmd_i`, the parameters and the observations. -/
theorem step_driveAddr {s : State} {a : Nat} {rest : List HostAction}
    (hp : s.pending = .driveAddr (levelsOf s.params.aw a) :: rest) :
    ∃ t, step s = .next t ∧ t.addr_i = levelsOf s.params.aw a ∧ t.cmd_i = s.cmd_i ∧ t.params = s.params ∧
      t.pending = rest ∧ t.observed = s.observed :=
  ⟨_, step_act hp, driveAddrPort_levelsOf { s with pending := rest } a⟩

/-- Driving a number on `cmd_i` puts it there and leaves `addr_i`, the parameters and the observations. -/
theorem step_driveCmd {s : State} {c : Nat} {rest : List HostAction}
    (hp : s.pending = .driveCmd (levelsOf s.params.cw c) :: rest) :
    ∃ t, step s = .next t ∧ t.cmd_i = levelsOf s.params.cw c ∧ t.addr_i = s.addr_i ∧ t.params = s.params ∧
      t.pending = rest ∧ t.observed = s.observed :=
  ⟨_, step_act hp, driveCmdPort_levelsOf { s with pending := rest } c⟩

/-- Holding the request on the ports drives ENCODE of it and leaves the ports, the parameters and the observations. -/
theorem step_hold {s : State} {a c : Nat} {rest : List HostAction} (hp : s.pending = .hold :: rest)
    (wide : s.portsWide = true) (hr : s.request = some (a, c)) :
    ∃ t, step s = .next t ∧ t.payload_o = some (encodeNec s.params a c).payload ∧
      t.err_o = some (encodeNec s.params a c).err ∧ t.addr_i = s.addr_i ∧ t.cmd_i = s.cmd_i ∧ t.params = s.params ∧
      t.pending = rest ∧ t.observed = s.observed := by
  have holding : s.holding = true := by rw [State.holding, hp]
  have taken : s.advance.pending = rest := congrArg List.tail hp
  exact ⟨_, step_of_request wide holding hr, rfl, rfl, rfl, rfl, rfl, taken, rfl⟩

/-- Settles O42: the drive leaves the command on its port, and the hold encodes the pair that then stands there. -/
theorem mixedPairIsEncodedAsItStands : Obligations.MixedPairIsEncodedAsItStands := by
  intro s a c a' rest wide hr ha' hp
  obtain ⟨-, cmd_len⟩ := portsWide_iff.mp wide
  obtain ⟨-, hc⟩ := request_eq_some.mp hr
  obtain ⟨t, drive, addr, cmd, params, pending, -⟩ := step_driveAddr hp
  have wide_t : t.portsWide = true := by
    rw [portsWide_iff, addr, cmd, params]
    exact ⟨levelsOf_length _ _, cmd_len⟩
  have request_t : t.request = some (a', c) := by
    rw [request_eq_some, addr, cmd]
    exact ⟨portValue_levelsOf_of_lt ha', hc⟩
  obtain ⟨u, hold, payload, err, -, -, -, pending_u, -⟩ := step_hold pending wide_t request_t
  rw [run_succ drive, run_succ hold, ← params]
  exact ⟨u, rfl, payload, err, pending_u⟩

/-! ## Whole requests -/

/-- The four steps of a presented request add ENCODE of it to the observations, whatever stood there before. -/
theorem run_requestActions {s : State} {a c : Nat} {rest : List HostAction} (ha : a < 2 ^ s.params.aw)
    (hc : c < 2 ^ s.params.cw) (hp : s.pending = requestActions s.params a c ++ rest) :
    ∃ t, (∀ k, Host.Core.run Sys2Proof.core (k + 4) s = Host.Core.run Sys2Proof.core k t) ∧ t.portsWide = true ∧
      t.params = s.params ∧ t.pending = rest ∧ t.observed = s.observed ++ [encodeNec s.params a c] := by
  obtain ⟨s₁, step₁, addr₁, -, params₁, pending₁, observed₁⟩ := step_driveAddr hp
  rw [← params₁] at pending₁
  obtain ⟨s₂, step₂, cmd₂, addr₂, params₂, pending₂, observed₂⟩ := step_driveCmd pending₁
  rw [addr₁] at addr₂
  rw [params₁] at cmd₂ params₂
  rw [observed₁] at observed₂
  have wide₂ : s₂.portsWide = true := by
    rw [portsWide_iff, addr₂, cmd₂, params₂]
    exact ⟨levelsOf_length _ _, levelsOf_length _ _⟩
  have request₂ : s₂.request = some (a, c) := by
    rw [request_eq_some, addr₂, cmd₂]
    exact ⟨portValue_levelsOf_of_lt ha, portValue_levelsOf_of_lt hc⟩
  obtain ⟨s₃, step₃, payload₃, err₃, addr₃, cmd₃, params₃, pending₃, observed₃⟩ := step_hold pending₂ wide₂ request₂
  have wide₃ : s₃.portsWide = true := by
    rw [portsWide_iff, addr₃, cmd₃, params₃, ← portsWide_iff]
    exact wide₂
  have step₄ := step_sample (rest := rest) pending₃ payload₃ err₃
  refine ⟨{ s₃ with pending := rest, observed := s₃.observed ++ [encodeNec s₂.params a c] }, fun k => ?_, wide₃,
    params₃.trans params₂, rfl, ?_⟩
  · rw [run_succ step₁, run_succ step₂, run_succ step₃, run_succ step₄]
  · rw [← params₂, ← observed₂, ← observed₃]

/-- Settles O49: by induction on the requests, four steps for each. -/
theorem requestsAreObservedAsTheirEncodings : Obligations.RequestsAreObservedAsTheirEncodings := by
  intro reqs
  induction reqs with
  | nil =>
    intro s _ _ hp
    exact ⟨s, rfl, (List.append_nil _).symm, hp, rfl⟩
  | cons r reqs ih =>
    intro s _ fits hp
    obtain ⟨⟨ha, hc⟩, fits_rest⟩ := List.forall_mem_cons.mp fits
    rw [List.flatMap_cons] at hp
    obtain ⟨t, run, wide, params, pending, observed⟩ := run_requestActions ha hc hp
    obtain ⟨u, run_rest, observed_rest, pending_rest, params_rest⟩ :=
      ih t wide (by rwa [params]) (by rw [pending, params])
    refine ⟨u, (run _).trans run_rest, ?_, pending_rest, params_rest.trans params⟩
    rw [observed_rest, observed, params, List.append_assoc]
    rfl

/-! ## The error level -/

/-- Where no error can occur ENCODE of a request that fits gives none (R7, R68). -/
theorem encodeNec_err_eq_false {p : Params} {a : Nat} (ha : a < 2 ^ p.aw) (h : p.policy = .truncate ∨ p.aw = 16)
    (c : Nat) : (encodeNec p a c).err = false := by
  rw [← Bool.not_eq_true, encodeNec_err_iff]
  rintro ⟨reject, above⟩
  rcases h with truncate | narrow
  · rw [truncate] at reject; cases reject
  · rw [narrow] at ha; omega

/-- The error level of ENCODE is that of R68: the policy, and any address bit from 16 up. -/
theorem encodeNec_err_eq (p : Params) (a c : Nat) :
    (encodeNec p a c).err = (decide (p.policy = .reject) && decide (a >>> 16 ≠ 0)) := by
  rw [Bool.eq_iff_iff, encodeNec_err_iff, Bool.and_eq_true, decide_eq_true_eq, decide_eq_true_eq,
    Nat.shiftRight_eq_div_pow]
  refine and_congr_right fun _ => ?_
  omega

/-- Settles O43: at rest the level is the constant, and otherwise it is that of ENCODE of the request. -/
theorem errorLevelFollowsTheAddress : Obligations.ErrorLevelFollowsTheAddress := by
  intro s wf
  obtain ⟨wide, agree⟩ := wf_iff.mp wf
  obtain ⟨unset, rest⟩ | ⟨a, c, hr, -, err⟩ := outputsAgree_iff.mp agree
  · refine ⟨fun no_error => ?_, fun v a c hv => ?_⟩
    · rw [rest]
      exact no_error.elim errAtRest_of_truncate errAtRest_of_narrow
    · rw [unset] at hv; cases hv
  · obtain ⟨ha, -⟩ := request_fits wide hr
    refine ⟨fun no_error => ?_, fun v a' c' _ hr' => ?_⟩
    · rw [err, encodeNec_err_eq_false ha no_error]
    · obtain ⟨⟩ := hr.symm.trans hr'
      rw [err, encodeNec_err_eq]

/-! ## A block with 16 address bits under another policy -/

/-- The outcome of a step in the same block built with another policy. -/
def outcomeWithPolicy (q : Policy) : Host.Outcome State Fault Refusal → Host.Outcome State Fault Refusal
  | .next t => .next (t.withPolicy q)
  | .fault r => .fault r
  | .refused r => .refused r

/-- An address of 16 bits is encoded alike under every policy (R7). -/
theorem encodeNec_withPolicy (p : Params) (q : Policy) {a : Nat} (ha : a < 2 ^ 16) (c : Nat) :
    encodeNec { p with policy := q } a c = encodeNec p a c := by
  obtain ⟨range, e⟩ | ⟨above, -, e⟩ | ⟨above, -⟩ := encodeNec_cases p a c
  · rw [e, encodeNec_normal _ range]
  · rw [e, encodeNec_extended above (.inl (Nat.le_of_lt_succ ha))]
  · omega

theorem errAtRest_withPolicy {p : Params} (narrow : p.aw = 16) (q : Policy) :
    errAtRest { p with policy := q } = errAtRest p := by
  rw [errAtRest_of_narrow narrow, errAtRest_of_narrow (p := { p with policy := q }) narrow]

theorem sampleOutputs_withPolicy (s : State) (q : Policy) :
    (s.withPolicy q).sampleOutputs = outcomeWithPolicy q s.sampleOutputs := by
  rw [State.sampleOutputs, State.sampleOutputs, withPolicy_payload_o, withPolicy_err_o]
  cases s.payload_o with
  | none => rfl
  | some v =>
    cases s.err_o with
    | none => rfl
    | some b => rfl

section
variable {s : State} (narrow : s.params.aw = 16) (q : Policy)
include narrow

theorem unsettle_withPolicy : (s.withPolicy q).unsettle = s.unsettle.withPolicy q := by
  rw [State.unsettle, State.unsettle, State.withPolicy, State.withPolicy, errAtRest_withPolicy narrow]

theorem driveAddrPort_withPolicy (ls : List Level) :
    (s.withPolicy q).driveAddrPort ls = (s.driveAddrPort ls).withPolicy q := by
  by_cases same : connect s.params.aw ls = s.addr_i
  · rw [State.driveAddrPort, State.driveAddrPort, if_pos same, withPolicy_aw, withPolicy_addr_i, if_pos same]
  · rw [State.driveAddrPort, State.driveAddrPort, if_neg same, withPolicy_aw, withPolicy_addr_i, if_neg same]
    exact unsettle_withPolicy (s := { s with addr_i := connect s.params.aw ls }) narrow q

theorem driveCmdPort_withPolicy (ls : List Level) :
    (s.withPolicy q).driveCmdPort ls = (s.driveCmdPort ls).withPolicy q := by
  by_cases same : connect s.params.cw ls = s.cmd_i
  · rw [State.driveCmdPort, State.driveCmdPort, if_pos same, withPolicy_cw, withPolicy_cmd_i, if_pos same]
  · rw [State.driveCmdPort, State.driveCmdPort, if_neg same, withPolicy_cw, withPolicy_cmd_i, if_neg same]
    exact unsettle_withPolicy (s := { s with cmd_i := connect s.params.cw ls }) narrow q

theorem evaluate_withPolicy : (s.withPolicy q).evaluate = outcomeWithPolicy q s.evaluate := by
  obtain ⟨hr, e⟩ | ⟨a, c, err, hr, hd, e⟩ | ⟨a, c, i, hr, hd, e⟩ := evaluate_cases s
  · rw [e, evaluate_of_request_none (s := s.withPolicy q) hr]; rfl
  · have hd_q : decodePair (s.withPolicy q).params a c = .error err := hd
    rw [e, State.evaluate, withPolicy_request, hr]
    simp only [hd_q]; rfl
  · have hd_q : decodePair (s.withPolicy q).params a c = .ok i := hd
    obtain ⟨ha, -⟩ := decodePair_cases hd
    rw [narrow] at ha
    rw [e, evaluate_eq_exec (s := s.withPolicy q) hr hd_q, exec_of_decodePair hd_q, exec_of_decodePair hd,
      State.withPolicy, encodeNec_withPolicy s.params q ha]
    rfl

theorem step_withPolicy : step (s.withPolicy q) = outcomeWithPolicy q (step s) := by
  cases hp : s.pending with
  | nil => rw [step_idle hp, step_idle (s := s.withPolicy q) hp, evaluate_withPolicy narrow]
  | cons act rest =>
    rw [step_act hp, step_act (s := s.withPolicy q) hp]
    cases act with
    | driveAddr ls => exact congrArg _ (driveAddrPort_withPolicy (s := { s with pending := rest }) narrow q ls)
    | driveCmd ls => exact congrArg _ (driveCmdPort_withPolicy (s := { s with pending := rest }) narrow q ls)
    | hold => exact evaluate_withPolicy (s := { s with pending := rest }) narrow q
    | sample => exact sampleOutputs_withPolicy { s with pending := rest } q

end

/-- Settles O50: at 16 address bits every value that depends on the policy is the same, and so every step is. -/
theorem policyHasNoEffectAtSixteenAddressBits : Obligations.PolicyHasNoEffectAtSixteenAddressBits := by
  refine fun q => ⟨fun p narrow => ⟨?_, fun a c ha => ?_⟩, fun s narrow => ⟨fun t next => ?_, fun r refused => ?_⟩⟩
  · rw [State.powerUp, State.powerUp, errAtRest_withPolicy narrow q]; rfl
  · exact encodeNec_withPolicy p q (narrow ▸ ha) c
  · rw [step_withPolicy narrow, next]; rfl
  · rw [step_withPolicy narrow, refused]; rfl

end Sys2Proof.Machine
end

section
/-! The payloads of the whole address space (R65, R66): when two addresses share a payload, which top halves occur,
and how many of each there are. -/

namespace Sys2Proof.Machine

/-! ## Equal payloads -/

theorem cat8_inj {x y x' y' : Byte} : cat8 x y = cat8 x' y' ↔ x = x' ∧ y = y' := by
  constructor
  · intro h
    exact ⟨by rw [← cat8_high x y, h, cat8_high], by rw [← cat8_low x y, h, cat8_low]⟩
  · rintro ⟨rfl, rfl⟩
    rfl

theorem addrRev8_inj {a b : Nat} : addrRev8 a = addrRev8 b ↔ a % 256 = b % 256 := by
  rw [addrRev8, addrRev8, rev8_injective.eq_iff, ← BitVec.toNat_inj, a8, a8, BitVec.toNat_ofNat, BitVec.toNat_ofNat]

theorem addrRev16_inj {a b : Nat} : addrRev16 a = addrRev16 b ↔ a % 0x10000 = b % 0x10000 := by
  have injective : Function.Injective rev16 := Function.LeftInverse.injective (g := rev16) rev16_rev16
  rw [addrRev16, addrRev16, injective.eq_iff, ← BitVec.toNat_inj, a16, a16, BitVec.toNat_ofNat, BitVec.toNat_ofNat]

/-- Up to 0xFFFF no policy matters: the payload is the address field above the command field. -/
theorem encodeNec_payload_of_le (p : Params) {a : Nat} (h : a ≤ 0xFFFF) (c : Nat) :
    (encodeNec p a c).payload = cat16 (addressField a) (commandField c) := by
  have accepted : (encodeNec p a c).err = false := by
    rw [← Bool.not_eq_true, encodeNec_err_iff]
    rintro ⟨-, above⟩
    omega
  exact encodeNec_payload_of_accepted accepted

theorem topHalf_of_le (p : Params) {a : Nat} (h : a ≤ 0xFFFF) (c : Nat) :
    (encodeNec p a c).payload.extractLsb' 16 16 = addressField a := by
  rw [encodeNec_payload_of_le p h, cat16_high]

theorem payload_eq_iff (p : Params) {a b : Nat} (ha : a ≤ 0xFFFF) (hb : b ≤ 0xFFFF) (c : Nat) :
    (encodeNec p a c).payload = (encodeNec p b c).payload ↔ addressField a = addressField b := by
  rw [encodeNec_payload_of_le p ha, encodeNec_payload_of_le p hb]
  constructor
  · intro h
    rw [← cat16_high (addressField a) (commandField c), h, cat16_high]
  · exact fun h => by rw [h]

/-- A normal and an extended field are equal exactly for a byte and its complement pair. -/
theorem addressField_normal_eq_extended_iff {a b : Nat} (ha : a ≤ 0xFF) (above : 0xFF < b) (hb : b ≤ 0xFFFF) :
    addressField a = addressField b ↔ a = b % 256 ∧ b = (0xFF - b % 256) * 256 + b % 256 := by
  rw [addressField_normal ha, addressField_extended above, addrRev16_eq_cat8, cat8_inj,
    ← addrRev8_shiftRight_eq_comp8_iff hb]
  constructor
  · rintro ⟨low, high⟩
    exact ⟨by have := addrRev8_inj.mp low; omega, by rw [← high, low]⟩
  · rintro ⟨low, high⟩
    have same : addrRev8 a = addrRev8 b := by rw [low, addrRev8_mod]
    exact ⟨same, by rw [high, same]⟩

/-- Two addresses up to 0xFFFF share their field exactly as a byte below 0xFF and its complement pair (R65). -/
theorem addressField_eq_iff {a b : Nat} (lt : a < b) (hb : b ≤ 0xFFFF) :
    addressField a = addressField b ↔ a ≤ 0xFE ∧ b = (0xFF - a) * 256 + a := by
  by_cases normal_b : b ≤ 0xFF
  · rw [addressField_normal (lt.le.trans normal_b), addressField_normal normal_b, cat8_inj, addrRev8_inj]
    omega
  · by_cases normal_a : a ≤ 0xFF
    · rw [addressField_normal_eq_extended_iff normal_a (Nat.lt_of_not_le normal_b) hb]
      omega
    · rw [addressField_extended (Nat.lt_of_not_le normal_a), addressField_extended (Nat.lt_of_not_le normal_b),
        addrRev16_inj]
      omega

/-- Settles O29: payloads of one command are equal exactly when the address fields are. -/
theorem collisionsAreExactlyComplementPairs : Obligations.CollisionsAreExactlyComplementPairs := by
  intro p a b c lt hb
  rw [payload_eq_iff p (lt.le.trans hb) hb, addressField_eq_iff lt hb]

/-! ## The top halves that occur -/

theorem addrRev8_toNat (b : Byte) : addrRev8 b.toNat = rev8 b := by
  rw [addrRev8, a8, BitVec.ofNat_toNat, BitVec.setWidth_eq]

theorem addrRev16_toNat (h : Half) : addrRev16 h.toNat = rev16 h := by
  rw [addrRev16, a16, BitVec.ofNat_toNat, BitVec.setWidth_eq]

/-- `{y, ~y}` is the field of the normal address `rev_8(y)`. -/
theorem addressField_rev8 (y : Byte) : addressField (rev8 y).toNat = y ++ ~~~y := by
  have range : (rev8 y).toNat ≤ 0xFF := Nat.le_of_lt_succ (rev8 y).isLt
  rw [addressField_normal range, addrRev8_toNat, rev8_rev8, comp8_eq_not, cat8]

/-- The extended address field's low byte is the reversed high address byte, zero exactly for an address without
one. -/
theorem addrRev16_low_eq_zero_iff {a : Nat} (h : a ≤ 0xFFFF) : (addrRev16 a).extractLsb' 0 8 = 0#8 ↔ a ≤ 0xFF := by
  have zero : addrRev8 0 = 0#8 := by decide
  rw [addrRev16_eq_cat8, cat8_low, ← zero, addrRev8_inj, Nat.shiftRight_eq_div_pow]
  omega

/-- A half with a nonzero low byte is the extended field of its own reversal, which lies above 0xFF. -/
theorem addressField_rev16 {t : Half} (low : t.extractLsb' 0 8 ≠ 0#8) :
    0xFF < (rev16 t).toNat ∧ addressField (rev16 t).toNat = t := by
  have field : addrRev16 (rev16 t).toNat = t := by rw [addrRev16_toNat, rev16_rev16]
  have above : 0xFF < (rev16 t).toNat := by
    have range : (rev16 t).toNat ≤ 0xFFFF := Nat.le_of_lt_succ (rev16 t).isLt
    rw [← Nat.not_le, ← addrRev16_low_eq_zero_iff range, field]
    exact low
  exact ⟨above, by rw [addressField_extended above, field]⟩

/-- A field with low byte zero is `{0xFF, 0x00}`, that of the normal address 0xFF. -/
theorem addressField_ne_zero_low {y : Byte} (hy : y ≠ 0xFF#8) {a : Nat} (h : a ≤ 0xFFFF) :
    addressField a ≠ cat8 y 0#8 := by
  intro field
  by_cases normal : a ≤ 0xFF
  · rw [addressField_normal normal, cat8_inj] at field
    obtain ⟨rfl, zero⟩ := field
    exact hy (by rw [← comp8_comp8 (addrRev8 a), zero]; rfl)
  · rw [addressField_extended (Nat.lt_of_not_le normal)] at field
    exact normal ((addrRev16_low_eq_zero_iff h).mp (by rw [field, cat8_low]))

/-- Under `TRUNCATE` the OVERRANGE address `0x10000 + rev_8(y)` has the field `{y, 0x00}`. -/
theorem topHalf_overrange {p : Params} (h : p.policy = .truncate) (y : Byte) (c : Nat) :
    (encodeNec p (0x10000 + (rev8 y).toNat) c).payload.extractLsb' 16 16 = y ++ 0#8 := by
  have range := (rev8 y).isLt
  rw [encodeNec_extended (by omega) (.inr h), payloadExtended, cat16_high, addrRev16_eq_cat8]
  have low : addrRev8 (0x10000 + (rev8 y).toNat) = y := by
    rw [← addrRev8_mod, show (0x10000 + (rev8 y).toNat) % 256 = (rev8 y).toNat by omega, addrRev8_toNat, rev8_rev8]
  have high : addrRev8 ((0x10000 + (rev8 y).toNat) >>> 8) = 0#8 := by
    rw [← addrRev8_mod, Nat.shiftRight_eq_div_pow, show (0x10000 + (rev8 y).toNat) / 2 ^ 8 % 256 = 0 by omega]
    rfl
  rw [low, high, cat8]

/-- Settles O30: each clause is one of the fields above, and the error's payload is fixed. -/
theorem topHalvesThatOccur : Obligations.TopHalvesThatOccur := by
  refine ⟨fun p y c => ?normal, fun p t c low _ => ?extended, fun p y a c hy h => ?absent,
    fun p y c truncate wide => ?overrange, fun p a c err => ?rejected⟩
  case normal =>
    have range := (rev8 y).isLt
    rw [topHalf_of_le p (by omega), addressField_rev8]
  case extended =>
    obtain ⟨above, field⟩ := addressField_rev16 low
    rw [topHalf_of_le p (Nat.le_of_lt_succ (rev16 t).isLt)]
    exact ⟨above, field⟩
  case absent =>
    rw [topHalf_of_le p h]
    exact addressField_ne_zero_low hy h
  case overrange =>
    have range := (rev8 y).isLt
    refine ⟨0x10000 + (rev8 y).toNat, by omega, ?_, topHalf_overrange truncate y c⟩
    calc 0x10000 + (rev8 y).toNat < 2 ^ 17 := by omega
      _ ≤ 2 ^ p.aw := Nat.pow_le_pow_right (by decide) wide
  case rejected =>
    obtain ⟨reject, above⟩ := (encodeNec_err_iff p a c).mp err
    exact encodeNec_rejected above reject c

/-! ## Counts -/

theorem cat8_fields (t : Half) : cat8 (t.extractLsb' 8 8) (t.extractLsb' 0 8) = t :=
  (BitVec.extractLsb'_append_extractLsb'_eq_extractLsb' rfl).trans BitVec.extractLsb'_eq_self

theorem natCard_bitVec (w : Nat) : Nat.card (BitVec w) = 2 ^ w :=
  (Nat.card_congr BitVec.equivFin.toEquiv).trans (Nat.card_fin _)

/-- The colliding pairs are those of the 255 bytes below 0xFF. -/
theorem collisions_eq_image (p : Params) (c : Nat) :
    {ab : Nat × Nat | ab.1 < ab.2 ∧ ab.2 ≤ 0xFFFF ∧ (encodeNec p ab.1 c).payload = (encodeNec p ab.2 c).payload} =
      (fun a : Nat => (a, (0xFF - a) * 256 + a)) '' Set.Iio 255 := by
  ext ⟨a, b⟩
  constructor
  · rintro ⟨lt, hb, same⟩
    obtain ⟨ha, pair⟩ := (collisionsAreExactlyComplementPairs p a b c lt hb).mp same
    exact ⟨a, Nat.lt_succ_of_le ha, Prod.ext rfl pair.symm⟩
  · rintro ⟨a, ha, ⟨⟩⟩
    have byte : a < 255 := ha
    have lt : a < (0xFF - a) * 256 + a := by omega
    have range : (0xFF - a) * 256 + a ≤ 0xFFFF := by omega
    exact ⟨lt, range, (collisionsAreExactlyComplementPairs p _ _ c lt range).mpr ⟨Nat.le_of_lt_succ byte, rfl⟩⟩

/-- A top half occurs unless it is `{y, 0x00}` with `y` other than 0xFF. -/
theorem topHalves_eq_compl (p : Params) (c : Nat) :
    {t : Half | ∃ a, a ≤ 0xFFFF ∧ (encodeNec p a c).payload.extractLsb' 16 16 = t} =
      ((fun y : Byte => cat8 y 0#8) '' {0xFF#8}ᶜ)ᶜ := by
  ext t
  constructor
  · rintro ⟨a, h, rfl⟩ ⟨y, hy, field⟩
    rw [topHalf_of_le p h] at field
    exact addressField_ne_zero_low hy h field.symm
  · intro absent
    by_cases low : t.extractLsb' 0 8 = 0#8
    · have high : t.extractLsb' 8 8 = 0xFF#8 := by
        by_contra other
        exact absent ⟨_, other, by rw [← low]; exact cat8_fields t⟩
      have all_ones : addressField 0xFF = cat8 0xFF#8 0#8 := by decide
      exact ⟨0xFF, by decide, by rw [topHalf_of_le p (by decide), all_ones, ← high, ← low, cat8_fields]⟩
    · have range : (rev16 t).toNat ≤ 0xFFFF := Nat.le_of_lt_succ (rev16 t).isLt
      exact ⟨_, range, by rw [topHalf_of_le p range]; exact (addressField_rev16 low).2⟩

/-- Settles O31: both sets are counted through an injective image of bytes. -/
theorem countsOfCollisionsAndTopHalves : Obligations.CountsOfCollisionsAndTopHalves := by
  intro p c
  constructor
  · have injective : Function.Injective fun a : Nat => (a, (0xFF - a) * 256 + a) := fun _ _ h => (Prod.mk.inj h).1
    rw [collisions_eq_image, Set.ncard_image_of_injective _ injective, Set.ncard_Iio_nat]
  · have injective : Function.Injective fun y : Byte => cat8 y 0#8 := fun _ _ h => (cat8_inj.mp h).1
    rw [topHalves_eq_compl, Set.ncard_compl, Set.ncard_image_of_injective _ injective, Set.ncard_compl,
      Set.ncard_singleton, natCard_bitVec, natCard_bitVec]
    rfl

end Sys2Proof.Machine
end
